-- ==== Sys2Proof/Word.lean ====
section
/-! DEFINITION. The values of CORE and the Word range of a width (spec/00_scope.md R6, R9).

"Every value is a mathematical integer (ℤ)" (R9): the manual never shifts, masks or wraps a value, so a value is an
`Int` and no bit vector. A value is *a Word* of a width when it lies in the range of R6. -/

namespace Sys2Proof

/-- The Word range of R6: `-2^(WORD_BITS-1) ≤ v ≤ 2^(WORD_BITS-1) - 1`. -/
abbrev Word.Fits (wordBits : Nat) (v : Int) : Prop :=
  -2 ^ (wordBits - 1) ≤ v ∧ v ≤ 2 ^ (wordBits - 1) - 1

end Sys2Proof
end

