-- ==== Sys2Proof/Config.lean ====
section
/-! DEFINITION. What a build of CORE fixes: the one open parameter of the spec, WORD_BITS (spec/00_scope.md R6,
spec/92_eei_decisions.md D1). -/

namespace Sys2Proof

/-- The parameters of one machine. -/
structure Config where
  /-- WORD_BITS of R6: the width of tape cells, operands, inputs and outputs. -/
  wordBits : Nat
  deriving DecidableEq, Repr

/-- The width the spec's own width-dependent vectors assume (R6: "they assume `WORD_BITS = 64`").
DESIGN CHOICE (log entry 1): the spec leaves the parameter OPEN; only State.reset uses this value. -/
def Config.standard : Config := { wordBits := 64 }

/-- A value is a Word of this machine (R6). -/
abbrev Config.IsWord (c : Config) (v : Int) : Prop := Word.Fits c.wordBits v

/-- The widths the model's invariant asks for. DEDUCED (log entry 13): R87 and R88 call the results 1 and 0
Words, and 1 is a Word only from two bits on. -/
abbrev Config.Legal (c : Config) : Prop := 2 ≤ c.wordBits

end Sys2Proof
end

