-- ==== Sys2Proof/Syntax.lean ====
section
/-! DEFINITION. The instructions of CORE as syntax: opcodes, addressing modes and the nine rows of
spec/opcode_table.json (spec/30_encoding.md R48, R49, R55, R56). -/

namespace Sys2Proof

/-- The two addressing modes (R2, R49): digit 0 Position, digit 1 Immediate. -/
inductive Mode where
  | position
  | immediate
  deriving DecidableEq, Repr

/-- The three mode digits of an instruction word (R49, R51): `m1`, `m2`, `m3` belong to parameters 1, 2, 3
(R57). All three are decoded for every opcode, those of absent parameters too. -/
structure Modes where
  m1 : Mode
  m2 : Mode
  m3 : Mode
  deriving DecidableEq, Repr

/-- The nine opcodes (R2, R55). -/
inductive Opcode where
  | add | mul | inp | out | jt | jf | lt | eq | hlt
  deriving DecidableEq, Repr

/-- The opcode field `DE` of R55. -/
def Opcode.code : Opcode → Nat
  | .add => 1
  | .mul => 2
  | .inp => 3
  | .out => 4
  | .jt => 5
  | .jf => 6
  | .lt => 7
  | .eq => 8
  | .hlt => 99

/-- The parameter count `n` of R55. -/
def Opcode.paramCount : Opcode → Nat
  | .add => 3
  | .mul => 3
  | .inp => 1
  | .out => 1
  | .jt => 2
  | .jf => 2
  | .lt => 3
  | .eq => 3
  | .hlt => 0

/-- The length in words, `1 + n` (R8, R48). -/
def Opcode.length (op : Opcode) : Nat := 1 + op.paramCount

/-- One constructor for each row of spec/opcode_table.json. `m` holds the three decoded mode digits, those
without effect included; `p1`, `p2`, `p3` are the raw parameter words (R48). -/
inductive Instr where
  /-- ADD, opcode 1, format F3 (R81): sources `p1`, `p2`, destination `p3`. -/
  | add (m : Modes) (p1 p2 p3 : Int)
  /-- MUL, opcode 2, format F3 (R82): sources `p1`, `p2`, destination `p3`. -/
  | mul (m : Modes) (p1 p2 p3 : Int)
  /-- IN, opcode 3, format F1d (R83): destination `p1`. -/
  | inp (m : Modes) (p1 : Int)
  /-- OUT, opcode 4, format F1s (R84): source `p1`. -/
  | out (m : Modes) (p1 : Int)
  /-- JT, opcode 5, format F2 (R85): condition `p1`, target `p2`. -/
  | jt (m : Modes) (p1 p2 : Int)
  /-- JF, opcode 6, format F2 (R86): condition `p1`, target `p2`. -/
  | jf (m : Modes) (p1 p2 : Int)
  /-- LT, opcode 7, format F3 (R87): sources `p1`, `p2`, destination `p3`. -/
  | lt (m : Modes) (p1 p2 p3 : Int)
  /-- EQ, opcode 8, format F3 (R88): sources `p1`, `p2`, destination `p3`. -/
  | eq (m : Modes) (p1 p2 p3 : Int)
  /-- HLT, opcode 99, format F0 (R89): no parameter. -/
  | hlt (m : Modes)
  deriving DecidableEq, Repr

/-- The opcode of an instruction. -/
def Instr.opcode : Instr → Opcode
  | .add _ _ _ _ => .add
  | .mul _ _ _ _ => .mul
  | .inp _ _ => .inp
  | .out _ _ => .out
  | .jt _ _ _ => .jt
  | .jf _ _ _ => .jf
  | .lt _ _ _ _ => .lt
  | .eq _ _ _ _ => .eq
  | .hlt _ => .hlt

/-- The mode digits of an instruction. -/
def Instr.modes : Instr → Modes
  | .add m _ _ _ => m
  | .mul m _ _ _ => m
  | .inp m _ => m
  | .out m _ => m
  | .jt m _ _ => m
  | .jf m _ _ => m
  | .lt m _ _ _ => m
  | .eq m _ _ _ => m
  | .hlt m => m

/-- The parameter words of an instruction, in the order they stand on the tape (R48). -/
def Instr.params : Instr → List Int
  | .add _ p1 p2 p3 => [p1, p2, p3]
  | .mul _ p1 p2 p3 => [p1, p2, p3]
  | .inp _ p1 => [p1]
  | .out _ p1 => [p1]
  | .jt _ p1 p2 => [p1, p2]
  | .jf _ p1 p2 => [p1, p2]
  | .lt _ p1 p2 p3 => [p1, p2, p3]
  | .eq _ p1 p2 p3 => [p1, p2, p3]
  | .hlt _ => []

end Sys2Proof
end

