-- ==== Sys2Proof/Decode.lean ====
section
/-! DEFINITION. The instruction decoder (spec/30_encoding.md R49 to R54), total and rejecting by name, and the
encoder written from the same tables (R55, R56, R64). -/

namespace Sys2Proof

/-! ## One instruction word -/

/-- The two errors the decoder reports (R51, R91, R92). -/
inductive DecodeError where
  | unknownOpcode
  | unknownAddressingMode
  deriving DecidableEq, Repr

/-- `digit_k(w) = (w div 10^k) mod 10` (R10). -/
def digit (k : Nat) (w : Nat) : Nat := w / 10 ^ k % 10

/-- The opcode of an opcode field, if it is one of the nine (R52). -/
def Opcode.ofCode : Nat → Option Opcode
  | 1 => some .add
  | 2 => some .mul
  | 3 => some .inp
  | 4 => some .out
  | 5 => some .jt
  | 6 => some .jf
  | 7 => some .lt
  | 8 => some .eq
  | 99 => some .hlt
  | _ => none

/-- The mode of a mode digit: "any other digit fails" (R53). -/
def Mode.ofDigit : Nat → Option Mode
  | 0 => some .position
  | 1 => some .immediate
  | _ => none

/-- The digit of a mode (R49). -/
def Mode.digit : Mode → Nat
  | .position => 0
  | .immediate => 1

/-- The three mode digits of a word of at most five digits, all checked (R53, R57). -/
def decodeModes (w : Nat) : Option Modes :=
  match Mode.ofDigit (digit 2 w), Mode.ofDigit (digit 3 w), Mode.ofDigit (digit 4 w) with
  | some m1, some m2, some m3 => some ⟨m1, m2, m3⟩
  | _, _, _ => none

/-- `Decode(w)` of R51, with the order of checks of R54: a negative word, the opcode field, the digits above the
fifth, the mode digits. -/
def decodeWord (w : Int) : Except DecodeError (Opcode × Modes) :=
  if w < 0 then .error .unknownOpcode
  else
    match Opcode.ofCode (w.toNat % 100) with
    | none => .error .unknownOpcode
    | some op =>
      if 100000 ≤ w then .error .unknownAddressingMode
      else
        match decodeModes w.toNat with
        | none => .error .unknownAddressingMode
        | some m => .ok (op, m)

/-- The instruction word of an opcode and its mode digits: `opcode + 100·m1 + 1000·m2 + 10000·m3` (R64). -/
def encodeWord (op : Opcode) (m : Modes) : Int :=
  (op.code + 100 * m.m1.digit + 1000 * m.m2.digit + 10000 * m.m3.digit : Nat)

/-! ## Whole instructions -/

/-- The instruction of an opcode, its modes and its parameter words; words beyond the opcode's count are not
looked at (R56). -/
def Instr.build (op : Opcode) (m : Modes) (p1 p2 p3 : Int) : Instr :=
  match op with
  | .add => .add m p1 p2 p3
  | .mul => .mul m p1 p2 p3
  | .inp => .inp m p1
  | .out => .out m p1
  | .jt => .jt m p1 p2
  | .jf => .jf m p1 p2
  | .lt => .lt m p1 p2 p3
  | .eq => .eq m p1 p2 p3
  | .hlt => .hlt m

/-- The instruction of an opcode, its modes and the list of its parameter words (R48). -/
def Instr.ofParams (op : Opcode) (m : Modes) (ps : List Int) : Instr :=
  Instr.build op m (ps.getD 0 0) (ps.getD 1 0) (ps.getD 2 0)

/-- Why a list of words begins with no instruction. -/
inductive Reject where
  /-- There is no word at all. -/
  | noWord
  /-- The first word is illegal (R61). -/
  | illegal (e : DecodeError)
  /-- Parameter word `i` (counted from 1) is missing. -/
  | missingParameter (i : Nat)
  deriving DecidableEq, Repr

/-- The instruction a list of words begins with, and the words after it; total, rejecting by name. The length is
known from the first word alone (R63). -/
def decode : List Int → Except Reject (Instr × List Int)
  | [] => .error .noWord
  | w :: ws =>
    match decodeWord w with
    | .error e => .error (.illegal e)
    | .ok (op, m) =>
      if ws.length < op.paramCount then .error (.missingParameter (ws.length + 1))
      else .ok (Instr.ofParams op m (ws.take op.paramCount), ws.drop op.paramCount)

/-- The instruction word of an instruction (R49, R64). -/
def Instr.word (i : Instr) : Int := encodeWord i.opcode i.modes

/-- The words of an instruction: the instruction word and the parameter words after it (R48, R56). -/
def encode (i : Instr) : List Int := i.word :: i.params

/-! ## The host's bit-numbered reading of an instruction

The spec gives an instruction no bits (R9, R39). DESIGN CHOICE (log entry 4): word k of an instruction is the
64 bits from bit 64·k on, read as two's complement, the first word lowest. -/

/-- The most words an instruction has (R8). -/
def maxLength : Nat := 4

/-- A 64-bit pattern read as a signed integer. -/
def signed64 (n : Nat) : Int := if n < 2 ^ 63 then n else (n : Int) - 2 ^ 64

/-- The `maxLength` words of an instruction whose bits are `w`, all bits from `nbits` on being 0. -/
def tableWords (nbits w : Nat) : List Int :=
  (List.range maxLength).map fun k => signed64 (w % 2 ^ nbits / 2 ^ (64 * k) % 2 ^ 64)

/-- The instruction the decoder reads from an instruction given as bits. -/
def decodeTableWord (nbits w : Nat) : Option Instr :=
  match decode (tableWords nbits w) with
  | .ok (i, _) => some i
  | .error _ => none

end Sys2Proof
end

