-- ==== Sys2Proof/Machine/State.lean ====
section
/-! DEFINITION. The state of one CORE instance (spec/10_state.md R13 to R28), the reasons a host-level stop can
have, and the state after reset. -/

namespace Sys2Proof.Machine

/-- The memory tape: cell `a` is element `a`, for `0 ≤ a < N`, and `N` is the length (R13, R15, R34). Every valid
address is listed once, in order, so equal tapes are equal lists (log entry 2). -/
abbrev Memory := List Int

/-- The form a tape has: every cell holds a Word of the machine (R15: "Every cell holds one Word"). -/
abbrev Memory.wf (c : Config) (m : Memory) : Prop := ∀ v ∈ m, c.IsWord v

/-- The run status of R19. -/
inductive Status where
  | running
  | halted
  | faulted
  deriving DecidableEq, Repr

/-- The fault causes of R90. -/
inductive Cause where
  | unknownOpcode
  | unknownAddressingMode
  | outOfBounds
  | inputExhausted
  | overflow
  deriving DecidableEq, Repr

/-- The fault record of R19. -/
structure FaultRecord where
  /-- which error -/
  cause : Cause
  /-- the head when the faulting step began -/
  head : Int
  /-- the instruction word fetched; none if the fetch itself failed -/
  word : Option Int
  /-- for `OutOfBounds` the address out of range, otherwise none -/
  addr : Option Int
  deriving DecidableEq, Repr

/-- The state of one instance: the tuple of R13, and the machine's parameter. -/
structure State where
  /-- WORD_BITS (R6); an argument of the model, written by no step (log entry 1) -/
  cfg : Config
  /-- the memory tape `mem` -/
  mem : Memory
  /-- the instruction pointer `head`, any integer (R17) -/
  head : Int
  /-- the running flag `status` -/
  status : Status
  /-- the fault record `fault`, empty unless `status` is Faulted -/
  fault : Option FaultRecord
  /-- the input queue `in`, taken from its end (R22) -/
  inp : List Int
  /-- the output queue `out`, appended at its end (R23) -/
  out : List Int
  deriving DecidableEq, Repr

/-- Why a step answers no next state. The five fault causes of the SPEC are no such reason: a step that raises one
goes to a next state with status Faulted (R97). Raised by `step` alone; safe: the model takes no step where the
machine takes none. -/
inductive Fault where
  /-- No step is enabled in `Halted` (R77, R107). Raised by `step`. Safe. -/
  | noStepHalted
  /-- No step is enabled in `Faulted` (R77, R107). Raised by `step`. Safe. -/
  | noStepFaulted
  deriving DecidableEq, Repr

/-- Why the model gives no meaning. -/
inductive Refusal where
  /-- An instruction without a meaning yet; raised by no arm of `exec`. Safe. -/
  | notModelled (mnemonic : String)
  /-- LOAD with a value outside the Word range, refused like `MalformedProgram` (R112, D21). Raised by the LOAD
  transaction, never by a step. Safe. -/
  | loadOutOfRange
  /-- LOAD while CORE is Running, which R25 does not allow. Raised by the LOAD transaction, never by a step. Safe. -/
  | loadWhileRunning
  deriving DecidableEq, Repr

/-- The state `LOAD(image, inputs)` leaves (R28, R109): CORE's only reset. -/
def State.load (c : Config) (image inputs : List Int) : State where
  cfg := c
  mem := image
  head := 0
  status := .running
  fault := none
  inp := inputs
  out := []

/-- The machine right after a LOAD of the empty image with no inputs. DESIGN CHOICE (log entries 1 and 3): every
reset value is R28's, and the image, the inputs and the width are the host's to give. -/
def State.reset : State := State.load Config.standard [] []

/-- What a meaning and a step answer. -/
abbrev Result := Host.Outcome State Fault Refusal

end Sys2Proof.Machine
end

