-- ==== Sys2Proof/Machine/Ops.lean ====
section
/-! DEFINITION. The shared operations on the tape and the queues, and taking a fault (spec/10_state.md R22, R23,
spec/20_memory.md R35 to R38, spec/60_exceptions.md R96 to R98). -/

namespace Sys2Proof.Machine

/-! ## The tape -/

/-- An address is valid if and only if `0 ≤ a < N` (R35). -/
abbrev Memory.Valid (m : Memory) (a : Int) : Prop := 0 ≤ a ∧ a < m.length

/-- The cell at an address, if the address is valid. -/
def Memory.cell (m : Memory) (a : Int) : Option Int := if 0 ≤ a then m[a.toNat]? else none

/-- What a `raise` hands over: the cause, and the address where one is given (R97). -/
structure Raise where
  cause : Cause
  addr : Option Int
  deriving DecidableEq, Repr

/-- `raise Fault(OutOfBounds, {addr: a})` (R36, R37). -/
def Raise.outOfBounds (a : Int) : Raise := { cause := .outOfBounds, addr := some a }

/-- `MemRead(a, 1)` of R36. -/
def memRead (m : Memory) (a : Int) : Except Raise Int :=
  match m.cell a with
  | some v => .ok v
  | none => .error (.outOfBounds a)

/-- `MemWrite(a, 1, v)` of R37: the tape after the write. It never grows (R38). -/
def memWrite (m : Memory) (a : Int) (v : Int) : Except Raise Memory :=
  if m.Valid a then .ok (m.set a.toNat v) else .error (.outOfBounds a)

/-! ## The queues -/

/-- `PopInput()` of R22: the LAST element, and the list without it. -/
def popInput (q : List Int) : Except Raise (Int × List Int) :=
  match q.getLast? with
  | some v => .ok (v, q.dropLast)
  | none => .error { cause := .inputExhausted, addr := none }

/-- `PushOutput(v)` of R23: appends at the end. -/
def pushOutput (q : List Int) (v : Int) : List Int := q ++ [v]

/-! ## Taking a fault -/

/-- The numeric code of a cause (R90). -/
def Cause.code : Cause → Nat
  | .unknownOpcode => 1
  | .unknownAddressingMode => 2
  | .outOfBounds => 3
  | .inputExhausted => 4
  | .overflow => 5

/-- The effect of a `raise` in a step (R97): `status` becomes Faulted and the record is written; nothing else
changes (R74). `word` is the instruction word, if it was fetched. There is no handler and no return (R98, R100):
only LOAD leaves Faulted. -/
def State.takeFault (s : State) (word : Option Int) (r : Raise) : State :=
  { s with
    status := .faulted
    fault := some { cause := r.cause, head := s.head, word := word, addr := r.addr } }

/-- The end of an instruction: the commit of all its effects together (R71), or the fault it raised (R74). The
word recorded is the instruction's own (R96; log entry 9). -/
def conclude (op : Opcode) (m : Modes) (s : State) : Except Raise State → Result
  | .ok t => .next t
  | .error r => .next (s.takeFault (some (encodeWord op m)) r)

/-- The head after an instruction that takes no jump: `head0 + 1 + n` (R72), exact. -/
def State.nextHead (s : State) (op : Opcode) : Int := s.head + op.length

end Sys2Proof.Machine
end

