-- ==== Sys2Proof/Machine/Flags.lean ====
section
/-! DEFINITION. The conditions instructions compute. CORE has no flags (spec/10_state.md R20): a comparison's
result is a Word, a branch tests an operand, and a result out of range raises a fault
(spec/41_arithmetic.md, spec/43_branch.md, spec/44_compare.md). -/

namespace Sys2Proof.Machine

/-- The Word 1 or 0 of a comparison (R20, R87, R88). -/
def truthWord (b : Bool) : Int := if b then 1 else 0

/-- The check of R81 and R82 that a result is a Word: `Overflow` instead of wrapping (R95, D2). -/
def checkRange (c : Config) (r : Int) : Except Raise Int :=
  if c.IsWord r then .ok r else .error { cause := .overflow, addr := none }

end Sys2Proof.Machine
end

