-- ==== Sys2Proof/Machine/Operands.lean ====
section
/-! DEFINITION. The operand forms: a source by its mode, a destination as a raw address (spec/30_encoding.md R58,
R59), and the shapes of the instructions that use them (R56). -/

namespace Sys2Proof.Machine

/-- `operand(i)` of R58: the parameter word itself, or the cell it names. -/
def operand (m : Memory) (mode : Mode) (p : Int) : Except Raise Int :=
  match mode with
  | .immediate => .ok p
  | .position => memRead m p

/-- The F3 shape (R56): both sources resolved, parameter 1 first (R69); the result computed, with its check; the
destination checked and written, always as a raw address (R59); the head advanced (R70, R71, R72). -/
def binary (op : Opcode) (compute : Int → Int → Except Raise Int) (m : Modes) (p1 p2 p3 : Int) (s : State) :
    Except Raise State := do
  let a ← operand s.mem m.m1 p1
  let b ← operand s.mem m.m2 p2
  let r ← compute a b
  let mem ← memWrite s.mem p3 r
  return { s with mem := mem, head := s.nextHead op }

/-- The F2 shape (R56): both operands resolved whether or not the branch is taken (R69); the head set to the
target, unchecked (R17), or advanced (R72, R73). -/
def branch (op : Opcode) (taken : Int → Bool) (m : Modes) (p1 p2 : Int) (s : State) : Except Raise State := do
  let c ← operand s.mem m.m1 p1
  let t ← operand s.mem m.m2 p2
  return { s with head := if taken c then t else s.nextHead op }

end Sys2Proof.Machine
end

