-- ==== Sys2Proof/Machine/Arithmetic.lean ====
section
/-! DEFINITION. ADD and MUL (spec/41_arithmetic.md R81, R82): exact in ℤ, with the fault Overflow. -/

namespace Sys2Proof.Machine

/-- ADD (R81). -/
def execAdd (m : Modes) (p1 p2 p3 : Int) (s : State) : Result :=
  conclude .add m s (binary .add (fun a b => checkRange s.cfg (a + b)) m p1 p2 p3 s)

/-- MUL (R82). -/
def execMul (m : Modes) (p1 p2 p3 : Int) (s : State) : Result :=
  conclude .mul m s (binary .mul (fun a b => checkRange s.cfg (a * b)) m p1 p2 p3 s)

end Sys2Proof.Machine
end

