-- ==== Sys2Proof/Machine/Branch.lean ====
section
/-! DEFINITION. JT and JF (spec/43_branch.md R85, R86): absolute, the target being operand 2. -/

namespace Sys2Proof.Machine

/-- JT (R85): any non-zero condition takes the branch. -/
def execJt (m : Modes) (p1 p2 : Int) (s : State) : Result :=
  conclude .jt m s (branch .jt (fun c => decide (c ≠ 0)) m p1 p2 s)

/-- JF (R86): only the exact value 0 takes the branch. -/
def execJf (m : Modes) (p1 p2 : Int) (s : State) : Result :=
  conclude .jf m s (branch .jf (fun c => decide (c = 0)) m p1 p2 s)

end Sys2Proof.Machine
end

