-- ==== Sys2Proof/Machine/Compare.lean ====
section
/-! DEFINITION. LT and EQ (spec/44_compare.md R87, R88): signed, in ℤ; the result is the Word 1 or 0. -/

namespace Sys2Proof.Machine

/-- LT (R87). -/
def execLt (m : Modes) (p1 p2 p3 : Int) (s : State) : Result :=
  conclude .lt m s (binary .lt (fun a b => .ok (truthWord (decide (a < b)))) m p1 p2 p3 s)

/-- EQ (R88). -/
def execEq (m : Modes) (p1 p2 p3 : Int) (s : State) : Result :=
  conclude .eq m s (binary .eq (fun a b => .ok (truthWord (decide (a = b)))) m p1 p2 p3 s)

end Sys2Proof.Machine
end

