-- ==== Sys2Proof/Machine/Halt.lean ====
section
/-! DEFINITION. HLT (spec/45_halt.md R89). -/

namespace Sys2Proof.Machine

/-- HLT (R89): status becomes Halted. The head becomes `head0 + 1` (D10); no host transaction returns it and no
statement of the model reads it (log entry 11). -/
def execHlt (m : Modes) (s : State) : Result :=
  conclude .hlt m s (.ok { s with status := .halted, head := s.nextHead .hlt })

end Sys2Proof.Machine
end

