-- ==== Sys2Proof/Machine/InputOutput.lean ====
section
/-! DEFINITION. IN and OUT (spec/42_io.md R83, R84). -/

namespace Sys2Proof.Machine

/-- IN (R83): the empty queue is reported before a bad destination (R70, R99). The destination is a raw address. -/
def execInp (m : Modes) (p1 : Int) (s : State) : Result :=
  conclude .inp m s do
    let (v, rest) ← popInput s.inp
    let mem ← memWrite s.mem p1 v
    return { s with mem := mem, inp := rest, head := s.nextHead .inp }

/-- OUT (R84). -/
def execOut (m : Modes) (p1 : Int) (s : State) : Result :=
  conclude .out m s do
    let v ← operand s.mem m.m1 p1
    return { s with out := pushOutput s.out v, head := s.nextHead .out }

end Sys2Proof.Machine
end

