-- ==== Sys2Proof/Machine/Dispatch.lean ====
section
/-! DEFINITION. `Execute(op)` of spec/40_engine_cycle.md R65: one arm per constructor of Instr. -/

namespace Sys2Proof.Machine

def exec (i : Instr) (s : State) : Host.Outcome State Fault Refusal :=
  match i with
  | .add m p1 p2 p3 => Sys2Proof.Machine.execAdd m p1 p2 p3 s
  | .mul m p1 p2 p3 => Sys2Proof.Machine.execMul m p1 p2 p3 s
  | .inp m p1 => Sys2Proof.Machine.execInp m p1 s
  | .out m p1 => Sys2Proof.Machine.execOut m p1 s
  | .jt m p1 p2 => Sys2Proof.Machine.execJt m p1 p2 s
  | .jf m p1 p2 => Sys2Proof.Machine.execJf m p1 p2 s
  | .lt m p1 p2 p3 => Sys2Proof.Machine.execLt m p1 p2 p3 s
  | .eq m p1 p2 p3 => Sys2Proof.Machine.execEq m p1 p2 p3 s
  | .hlt m => Sys2Proof.Machine.execHlt m s

end Sys2Proof.Machine
end

