-- ==== Sys2Proof/Machine/Fetch.lean ====
section
/-! DEFINITION. The fetch and decode half of the step (spec/40_engine_cycle.md R66, R67, R68), and placing an
instruction's words where the step fetches them. -/

namespace Sys2Proof.Machine

/-- A fault of the fetch half: what was raised, and the instruction word if it had been fetched (R96). -/
structure FetchFault where
  word : Option Int
  raised : Raise
  deriving DecidableEq, Repr

/-- The cause code of a decode error (R67, R90). -/
def Cause.ofDecodeError : DecodeError → Cause
  | .unknownOpcode => .unknownOpcode
  | .unknownAddressingMode => .unknownAddressingMode

/-- The parameter words from address `a` on, `n` of them, in increasing order (R68). -/
def fetchParams (m : Memory) (a : Int) : Nat → Except Raise (List Int)
  | 0 => .ok []
  | n + 1 => do
    let p ← memRead m a
    let ps ← fetchParams m (a + 1) n
    return p :: ps

/-- Fetch (R66), decode (R67) and parameter fetch (R68) of the instruction at the head. -/
def fetch (s : State) : Except FetchFault Instr :=
  match memRead s.mem s.head with
  | .error r => .error { word := none, raised := r }
  | .ok w =>
    match decodeWord w with
    | .error e => .error { word := some w, raised := { cause := Cause.ofDecodeError e, addr := none } }
    | .ok (op, m) =>
      match fetchParams s.mem (s.head + 1) op.paramCount with
      | .error r => .error { word := some w, raised := r }
      | .ok ps => .ok (Instr.ofParams op m ps)

/-- A tape with words put on it from an address on; cells that were not there before them are 0. This is no
operation of the machine, whose tape never grows (R38): it stands for a LOAD of another image (log entry 5). -/
def overlay (m : Memory) (a : Nat) (ws : List Int) : Memory :=
  (m ++ List.replicate (a - m.length) 0).take a ++ ws ++ m.drop (a + ws.length)

end Sys2Proof.Machine
end

