-- ==== Sys2Proof/Machine/Step.lean ====
section
/-! DEFINITION. One step of CORE (spec/40_engine_cycle.md R65, R77), and the state in which the next step runs a
given instruction. -/

namespace Sys2Proof.Machine

/-- `Step()` of R65. A fault of the spec is a next state (R97); in Halted and Faulted no step is enabled (R77). -/
def step (s : State) : Host.Outcome State Fault Refusal :=
  match s.status with
  | .running =>
    match fetch s with
    | .ok i => exec i s
    | .error f => .next (s.takeFault f.word f.raised)
  | .halted => .fault .noStepHalted
  | .faulted => .fault .noStepFaulted

/-- `s` with the instruction whose bits are `w` where the next step fetches (log entry 5): its words on the tape
at the head, the tape long enough to hold them, the machine Running. A negative head, which no tape can serve,
becomes 0. -/
def State.withFetchWord (s : State) (nbits w : Nat) : State :=
  { s with
    mem := overlay s.mem s.head.toNat (tableWords nbits w)
    head := s.head.toNat
    status := .running
    fault := none }

end Sys2Proof.Machine
end

