-- ==== Sys2Proof/Machine/Assembler.lean ====
section
/-! DEFINITION. The spec's own assembly notation (spec/30_encoding.md R64, D16): operands, labels, DATA and the
pseudo-instructions. Missing and repeated labels: log entry 14. No step uses this file. -/

namespace Sys2Proof.Machine.Asm

/-- A word in assembly: a number, or the address a label names. -/
inductive Ref where
  | num (v : Int)
  | label (name : String)
  deriving DecidableEq, Repr

/-- A source operand: `#v` (Immediate) or `a` (Position). -/
inductive Src where
  | imm (r : Ref)
  | pos (r : Ref)
  deriving DecidableEq, Repr

/-- A line of assembly (R64): a label, DATA, the nine instructions, the six pseudo-instructions. -/
inductive Line where
  | label (name : String)
  | data (words : List Ref)
  | add (a b : Src) (d : Ref)
  | mul (a b : Src) (d : Ref)
  | inp (d : Ref)
  | out (a : Src)
  | jt (c t : Src)
  | jf (c t : Src)
  | lt (a b : Src) (d : Ref)
  | eq (a b : Src) (d : Ref)
  | hlt
  | jmp (t : Ref)
  | jmpi (a : Ref)
  | mov (a : Src) (d : Ref)
  | neg (a : Src) (d : Ref)
  | clr (d : Ref)
  | nop
  deriving DecidableEq, Repr

/-- The mode digit of a source. -/
def Src.mode : Src → Mode
  | .imm _ => .immediate
  | .pos _ => .position

/-- The parameter word of a source. -/
def Src.ref : Src → Ref
  | .imm r => r
  | .pos r => r

/-- The instruction word of an opcode and its sources; "the assembler never emits mode digit 1 for a
destination" (R64), nor for an absent parameter. -/
def instrWord (op : Opcode) (m1 m2 : Mode) : Ref := .num (encodeWord op ⟨m1, m2, .position⟩)

/-- The cells of a format F3 line. -/
def cells3 (op : Opcode) (a b : Src) (d : Ref) : List Ref := [instrWord op a.mode b.mode, a.ref, b.ref, d]

/-- The cells of a format F2 line. -/
def cells2 (op : Opcode) (c t : Src) : List Ref := [instrWord op c.mode t.mode, c.ref, t.ref]

/-- The cells a line stands for, labels not yet resolved; a pseudo-instruction is its expansion (R64). -/
def Line.cells : Line → List Ref
  | .label _ => []
  | .data ws => ws
  | .add a b d => cells3 .add a b d
  | .mul a b d => cells3 .mul a b d
  | .inp d => [instrWord .inp .position .position, d]
  | .out a => [instrWord .out a.mode .position, a.ref]
  | .jt c t => cells2 .jt c t
  | .jf c t => cells2 .jf c t
  | .lt a b d => cells3 .lt a b d
  | .eq a b d => cells3 .eq a b d
  | .hlt => [instrWord .hlt .position .position]
  | .jmp t => cells2 .jt (.imm (.num 1)) (.imm t)
  | .jmpi a => cells2 .jt (.imm (.num 1)) (.pos a)
  | .mov a d => cells3 .add a (.imm (.num 0)) d
  | .neg a d => cells3 .mul a (.imm (.num (-1))) d
  | .clr d => cells3 .add (.imm (.num 0)) (.imm (.num 0)) d
  | .nop => cells2 .jf (.imm (.num 1)) (.imm (.num 0))

/-- The address a label names: that of the next word (R64), the lines starting at address `a`. -/
def labelAddress (name : String) : List Line → Nat → Option Nat
  | [], _ => none
  | .label j :: ls, a => if j = name then some a else labelAddress name ls a
  | l :: ls, a => labelAddress name ls (a + l.cells.length)

/-- The word a reference stands for in a program. -/
def Ref.resolve (program : List Line) : Ref → Option Int
  | .num v => some v
  | .label name => (labelAddress name program 0).map fun a => (a : Int)

/-- The words of a program placed from address 0; none if it uses a label it does not have. -/
def assemble (program : List Line) : Option (List Int) :=
  (program.flatMap Line.cells).mapM (Ref.resolve program)

end Sys2Proof.Machine.Asm
end

