-- ==== Sys2Proof/Machine/HostInterface.lean ====
section
/-! DEFINITION. The host's transactions LOAD, RUN, STATUS, READ_MEM and READ_OUT (spec/10_state.md R25 to R28), the
run loop (spec/40_engine_cycle.md R75, R76), what the host observes of a run (spec/60_exceptions.md R108), and
several independent instances (R104). -/

namespace Sys2Proof.Machine

/-! ## LOAD -/

/-- The LOAD that starts a machine (R109, R111): refused if a value is not a Word (R112), and otherwise the state
of R28. -/
def boot (c : Config) (image inputs : List Int) : Result :=
  if (∀ v ∈ image, c.IsWord v) ∧ (∀ v ∈ inputs, c.IsWord v) then .next (State.load c image inputs)
  else .refused .loadOutOfRange

/-- `LOAD(image, inputs)` on a machine in state `s`: "any time CORE is not Running" (R25, R113). -/
def hostLoad (s : State) (image inputs : List Int) : Result :=
  if s.status = .running then .refused .loadWhileRunning else boot s.cfg image inputs

/-! ## RUN -/

/-- At most `n` steps, ending early where no step is enabled. The bound is the host's (R76); it is no state of
CORE. -/
def runSteps : Nat → State → State
  | 0, s => s
  | n + 1, s =>
    match step s with
    | .next t => runSteps n t
    | .fault _ => s
    | .refused _ => s

/-- `RUN` from `s` returns with the machine in state `t` (R75): steps until `status ≠ Running`. -/
def Run (s t : State) : Prop := ∃ n, runSteps n s = t ∧ t.status ≠ .running

/-- The run from `s` never ends (R76, R108). -/
def Hangs (s : State) : Prop := ∀ n, (runSteps n s).status = .running

/-! ## STATUS, READ_MEM, READ_OUT and the observation of a run -/

/-- `STATUS`, once RUN has returned (R25). -/
def readStatus (s : State) : Option (Status × Option FaultRecord) :=
  match s.status with
  | .running => none
  | .halted => some (s.status, s.fault)
  | .faulted => some (s.status, s.fault)

/-- `READ_MEM`, once RUN has returned with Halted (R25). -/
def readMem (s : State) : Option Memory :=
  match s.status with
  | .halted => some s.mem
  | .running => none
  | .faulted => none

/-- `READ_OUT`, once RUN has returned with Halted (R25). -/
def readOut (s : State) : Option (List Int) :=
  match s.status with
  | .halted => some s.out
  | .running => none
  | .faulted => none

/-- What the host observes of a run that ends (R108). -/
inductive Observation where
  /-- Success: the final memory and the output list. -/
  | success (mem : Memory) (out : List Int)
  /-- Failure: the fault record only. -/
  | failure (fault : FaultRecord)
  deriving DecidableEq, Repr

/-- The observation a state gives, if RUN has returned in it (R26, R108). -/
def observe (s : State) : Option Observation :=
  match s.status with
  | .running => none
  | .halted => some (.success s.mem s.out)
  | .faulted => s.fault.map .failure

/-! ## Several instances -/

/-- The host boots an instance with another's output as its inputs, `extra` after them (R27, R104). The outputs
can be read only after a Halted run (R25). -/
def feedOutput (source : State) (c : Config) (image extra : List Int) : Option Result :=
  (readOut source).map fun o => boot c image (o ++ extra)

/-- A step of instance `k` of a system of instances (R14, R104); nothing where there is no such instance or it
takes no step. -/
def stepInstance (k : Nat) (sys : List State) : List State :=
  match sys[k]? with
  | none => sys
  | some s =>
    match step s with
    | .next t => sys.set k t
    | .fault _ => sys
    | .refused _ => sys

end Sys2Proof.Machine
end

