-- ==== Sys2Proof/Safety.lean ====
section
/-! DEFINITION. The terms claims about runs use: the invariant of the run state, a run that ends well, and the fault
order of spec/60_exceptions.md R99 written as a list of conditions, apart from the meanings. -/

namespace Sys2Proof

/-- How many source parameters an opcode has (R55). -/
def Opcode.sourceCount : Opcode → Nat
  | .add => 2
  | .mul => 2
  | .inp => 0
  | .out => 1
  | .jt => 2
  | .jf => 2
  | .lt => 2
  | .eq => 2
  | .hlt => 0

/-- Which parameter is the destination, 0 for none (R55). -/
def Opcode.destination : Opcode → Nat
  | .add => 3
  | .mul => 3
  | .inp => 1
  | .out => 0
  | .jt => 0
  | .jf => 0
  | .lt => 3
  | .eq => 3
  | .hlt => 0

end Sys2Proof

namespace Sys2Proof.Machine

/-- What R96 says a record holds, for a record of a faulted state with this tape: the word is the one at the
recorded head, none exactly when that fetch failed; `addr` is an invalid address for `OutOfBounds`, the head itself
if the fetch failed, and none for every other cause. -/
def FaultRecord.Fits (r : FaultRecord) (m : Memory) : Prop :=
  r.word = m.cell r.head ∧
  match r.cause with
  | .outOfBounds => ∃ a, r.addr = some a ∧ ¬ m.Valid a ∧ (r.word = none → a = r.head)
  | .unknownOpcode => r.addr = none ∧ r.word ≠ none
  | .unknownAddressingMode => r.addr = none ∧ r.word ≠ none
  | .inputExhausted => r.addr = none ∧ r.word ≠ none
  | .overflow => r.addr = none ∧ r.word ≠ none

/-- The invariant of the run state: tape and queues hold Words (R13, R15), the fault record is empty unless status
is Faulted (R13), and in Faulted it is the precise record of R96 and R98. -/
structure State.Inv (s : State) : Prop where
  legal : s.cfg.Legal
  mem : s.mem.wf s.cfg
  inp : ∀ v ∈ s.inp, s.cfg.IsWord v
  out : ∀ v ∈ s.out, s.cfg.IsWord v
  noFault : s.status ≠ .faulted → s.fault = none
  faultRecord : s.status = .faulted → ∃ r, s.fault = some r ∧ r.head = s.head ∧ r.Fits s.mem

/-! ## The words of the rules, apart from the meanings -/

/-- Source parameter `p` of mode `d` yields `v` (R58): itself, or the cell it names. -/
abbrev SourceIs (m : Memory) (d : Mode) (p v : Int) : Prop :=
  d = .immediate ∧ v = p ∨ d = .position ∧ m.cell p = some v

/-- Source parameter `p` of mode `d` names an invalid address (R58). -/
abbrev SourceBad (m : Memory) (d : Mode) (p : Int) : Prop := d = .position ∧ ¬ m.Valid p

/-- The state after `raise` in a step that began in `s` (R97): status and fault, nothing else (R74). -/
def State.aborted (s : State) (c : Cause) (word : Option Int) (addr : Option Int) : State :=
  { s with status := .faulted, fault := some { cause := c, head := s.head, word := word, addr := addr } }

/-- The opcode fields of R52. -/
def legalOpcodes : List Int := [1, 2, 3, 4, 5, 6, 7, 8, 99]

/-- `opcode + 100·m1 + 1000·m2 + 10000·m3` (R64), as the encoding line of every instruction rule has it. -/
def wordOf (opcode : Int) (m : Modes) : Int :=
  opcode + 100 * m.m1.digit + 1000 * m.m2.digit + 10000 * m.m3.digit

/-- The run from `s` ends in success (R108). -/
def EndsWell (s : State) : Prop := ∃ t, Run s t ∧ t.status = .halted

/-! ## The fault order -/

/-- The conditions of R99 in their order, each with the record R96 gives it. A condition is read only when those
before it are false, so a word that does not exist may read as 0 here. -/
def faultConditions (s : State) : List (Bool × FaultRecord) :=
  let w := (s.mem.cell s.head).getD 0
  let op := (Opcode.ofCode (w.toNat % 100)).getD .hlt
  let p := fun i : Nat => (s.mem.cell (s.head + i)).getD 0
  let position := fun i : Nat => decide (digit (i + 1) w.toNat = 0)
  let operandValue := fun i : Nat => if position i then (s.mem.cell (p i)).getD 0 else p i
  let invalid := fun a : Int => !decide (s.mem.Valid a)
  let record := fun c : Cause => { cause := c, head := s.head, word := some w, addr := none : FaultRecord }
  let outside := fun a : Int => { cause := .outOfBounds, head := s.head, word := some w, addr := some a : FaultRecord }
  [ (invalid s.head, { cause := .outOfBounds, head := s.head, word := none, addr := some s.head }),
    (decide (w < 0) || (Opcode.ofCode (w.toNat % 100)).isNone, record .unknownOpcode),
    (decide (100000 ≤ w ∨ 1 < digit 2 w.toNat ∨ 1 < digit 3 w.toNat ∨ 1 < digit 4 w.toNat),
      record .unknownAddressingMode),
    (decide (1 ≤ op.paramCount) && invalid (s.head + 1), outside (s.head + 1)),
    (decide (2 ≤ op.paramCount) && invalid (s.head + 2), outside (s.head + 2)),
    (decide (3 ≤ op.paramCount) && invalid (s.head + 3), outside (s.head + 3)),
    (decide (1 ≤ op.sourceCount) && position 1 && invalid (p 1), outside (p 1)),
    (decide (2 ≤ op.sourceCount) && position 2 && invalid (p 2), outside (p 2)),
    (decide (op = .add ∧ ¬ s.cfg.IsWord (operandValue 1 + operandValue 2) ∨
        op = .mul ∧ ¬ s.cfg.IsWord (operandValue 1 * operandValue 2)), record .overflow),
    (decide (op = .inp ∧ s.inp = []), record .inputExhausted),
    (decide (op.destination ≠ 0) && invalid (p op.destination), outside (p op.destination)) ]

/-- The fault R99 makes a step report: that of the first condition that holds. -/
def firstFault (s : State) : Option FaultRecord :=
  ((faultConditions s).find? fun c => c.1).map fun c => c.2

end Sys2Proof.Machine
end

