-- ==== Sys2Proof/Certificates/Slice0/Obligations.lean ====
section
/-! DEFINITION. The statements for the provers, made from the numbered rules of spec/. -/

open Sys2Proof Sys2Proof.Machine

/-! ## Decoding and encoding -/

/-- Words written out from R49 and R55, with the results of spec/95_test_vectors.md §2.1. -/
def Obligations.SpecWordsDecodeAsListed : Prop :=
  decode [1002, 4, 3, 4, 33] = .ok (.mul ⟨.position, .immediate, .position⟩ 4 3 4, [33]) ∧
  decode [11101, 2, 3, 5] = .ok (.add ⟨.immediate, .immediate, .immediate⟩ 2 3 5, []) ∧
  decode [3, 9] = .ok (.inp ⟨.position, .position, .position⟩ 9, []) ∧
  decode [104, 999] = .ok (.out ⟨.immediate, .position, .position⟩ 999, []) ∧
  decode [1105, 1, 4] = .ok (.jt ⟨.immediate, .immediate, .position⟩ 1 4, []) ∧
  decode [1108, -1, 8, 3] = .ok (.eq ⟨.immediate, .immediate, .position⟩ (-1) 8 3, []) ∧
  decode [11199] = .ok (.hlt ⟨.immediate, .immediate, .immediate⟩, []) ∧
  decodeWord 210 = .error .unknownOpcode ∧
  decodeWord (-1) = .error .unknownOpcode ∧
  decodeWord 100010 = .error .unknownOpcode ∧
  decodeWord 299 = .error .unknownAddressingMode ∧
  decodeWord 20004 = .error .unknownAddressingMode ∧
  decodeWord 100099 = .error .unknownAddressingMode

/-- The words of an instruction, wherever they stand, decode to it and to nothing beyond its length (R48, R49, R55). -/
def Obligations.DecodeOfEncodeGivesTheInstruction : Prop :=
  ∀ (i : Instr) (rest : List Int), decode (encode i ++ rest) = .ok (i, rest)

/-- Words the decoder accepts are the encoding of what it answers: each word has one meaning (R51, R61). -/
def Obligations.AcceptedWordsAreTheEncoding : Prop :=
  ∀ (ws rest : List Int) (i : Instr), decode ws = .ok (i, rest) → ws = encode i ++ rest

/-- R49 to R54: which words are rejected, under which name, and which digit is which field of the others. -/
def Obligations.DecoderClassifiesEveryWord : Prop :=
  ∀ w : Int,
    (decodeWord w = .error .unknownOpcode ↔ w < 0 ∨ w % 100 ∉ legalOpcodes) ∧
    (decodeWord w = .error .unknownAddressingMode ↔
      0 ≤ w ∧ w % 100 ∈ legalOpcodes ∧
        (100000 ≤ w ∨ w / 100 % 10 ∉ [0, 1] ∨ w / 1000 % 10 ∉ [0, 1] ∨ w / 10000 % 10 ∉ [0, 1])) ∧
    ∀ (op : Opcode) (m : Modes),
      decodeWord w = .ok (op, m) ↔
        0 ≤ w ∧ w < 100000 ∧ w % 100 = op.code ∧
          w / 100 % 10 = m.m1.digit ∧ w / 1000 % 10 = m.m2.digit ∧ w / 10000 % 10 = m.m3.digit

/-! ## The fetch half of the step -/

/-- R66. -/
def Obligations.FetchOutsideTheTapeFaults : Prop :=
  ∀ s : State, s.status = .running → ¬ s.mem.Valid s.head →
    step s = .next (s.aborted .outOfBounds none (some s.head))

/-- R91: its code, when it is raised and what it records. -/
def Obligations.UnknownOpcodeIsRaisedAtDecode : Prop :=
  Cause.unknownOpcode.code = 1 ∧
  ∀ (s : State) (w : Int), s.status = .running → s.mem.cell s.head = some w →
    (w < 0 ∨ w % 100 ∉ legalOpcodes) →
    step s = .next (s.aborted .unknownOpcode (some w) none)

/-- R92: its code, when it is raised and what it records. -/
def Obligations.UnknownAddressingModeIsRaisedAtDecode : Prop :=
  Cause.unknownAddressingMode.code = 2 ∧
  ∀ (s : State) (w : Int), s.status = .running → s.mem.cell s.head = some w →
    0 ≤ w → w % 100 ∈ legalOpcodes →
    (100000 ≤ w ∨ w / 100 % 10 ∉ [0, 1] ∨ w / 1000 % 10 ∉ [0, 1] ∨ w / 10000 % 10 ∉ [0, 1]) →
    step s = .next (s.aborted .unknownAddressingMode (some w) none)

/-- R68: all parameter words are read before anything else, in increasing order; the first one past the end faults,
whatever the instruction would do with it. -/
def Obligations.ParametersAreFetchedFirst : Prop :=
  ∀ (s : State) (w : Int) (op : Opcode) (m : Modes),
    s.status = .running → s.mem.cell s.head = some w → decodeWord w = .ok (op, m) →
    (∀ k : Nat, 1 ≤ k → k ≤ op.paramCount → (∀ j : Nat, 1 ≤ j → j < k → s.mem.Valid (s.head + j)) →
      ¬ s.mem.Valid (s.head + k) →
      step s = .next (s.aborted .outOfBounds (some w) (some (s.head + k)))) ∧
    (∀ ps : List Int, ps.length = op.paramCount →
      (∀ k : Nat, k < op.paramCount → s.mem.cell (s.head + 1 + k) = ps[k]?) →
      step s = exec (Instr.ofParams op m ps) s)

/-- A step at words that decode to an instruction is that instruction's meaning at the same state, with nothing
added around it (R65). -/
def Obligations.StepRunsTheDecodedInstruction : Prop :=
  ∀ (s : State) (i : Instr) (rest : List Int),
    s.status = .running → 0 ≤ s.head → decode (s.mem.drop s.head.toNat) = .ok (i, rest) →
    step s = exec i s

/-- The host's probe: the instruction its bits decode to is the one the next step runs (log entries 4 and 5: the bit
numbering and the placing are the model's choice). -/
def Obligations.PlacedInstructionIsTheNextToRun : Prop :=
  ∀ (s : State) (nbits w : Nat) (i : Instr),
    decodeTableWord nbits w = some i →
    step (s.withFetchWord nbits w) = exec i (s.withFetchWord nbits w)

/-! ## Operands and instructions -/

/-- R58. -/
def Obligations.OperandFollowsItsMode : Prop :=
  ∀ (m : Memory) (p : Int),
    operand m .immediate p = .ok p ∧
    (∀ v, m.cell p = some v → operand m .position p = .ok v) ∧
    (¬ m.Valid p → operand m .position p = .error { cause := .outOfBounds, addr := some p })

/-- R81: the encoding, the exceptions in their order, and the effect. -/
def Obligations.AddFollowsItsRule : Prop :=
  ∀ (m : Modes) (p1 p2 p3 : Int) (s : State),
    encode (.add m p1 p2 p3) = [wordOf 1 m, p1, p2, p3] ∧
    (SourceBad s.mem m.m1 p1 →
      exec (.add m p1 p2 p3) s = .next (s.aborted .outOfBounds (some (wordOf 1 m)) (some p1))) ∧
    ∀ a, SourceIs s.mem m.m1 p1 a →
      (SourceBad s.mem m.m2 p2 →
        exec (.add m p1 p2 p3) s = .next (s.aborted .outOfBounds (some (wordOf 1 m)) (some p2))) ∧
      ∀ b, SourceIs s.mem m.m2 p2 b →
        (¬ s.cfg.IsWord (a + b) →
          exec (.add m p1 p2 p3) s = .next (s.aborted .overflow (some (wordOf 1 m)) none)) ∧
        (s.cfg.IsWord (a + b) → ¬ s.mem.Valid p3 →
          exec (.add m p1 p2 p3) s = .next (s.aborted .outOfBounds (some (wordOf 1 m)) (some p3))) ∧
        (s.cfg.IsWord (a + b) → s.mem.Valid p3 →
          exec (.add m p1 p2 p3) s = .next { s with mem := s.mem.set p3.toNat (a + b), head := s.head + 4 })

/-- R82: the encoding, the exceptions in their order, and the effect. -/
def Obligations.MulFollowsItsRule : Prop :=
  ∀ (m : Modes) (p1 p2 p3 : Int) (s : State),
    encode (.mul m p1 p2 p3) = [wordOf 2 m, p1, p2, p3] ∧
    (SourceBad s.mem m.m1 p1 →
      exec (.mul m p1 p2 p3) s = .next (s.aborted .outOfBounds (some (wordOf 2 m)) (some p1))) ∧
    ∀ a, SourceIs s.mem m.m1 p1 a →
      (SourceBad s.mem m.m2 p2 →
        exec (.mul m p1 p2 p3) s = .next (s.aborted .outOfBounds (some (wordOf 2 m)) (some p2))) ∧
      ∀ b, SourceIs s.mem m.m2 p2 b →
        (¬ s.cfg.IsWord (a * b) →
          exec (.mul m p1 p2 p3) s = .next (s.aborted .overflow (some (wordOf 2 m)) none)) ∧
        (s.cfg.IsWord (a * b) → ¬ s.mem.Valid p3 →
          exec (.mul m p1 p2 p3) s = .next (s.aborted .outOfBounds (some (wordOf 2 m)) (some p3))) ∧
        (s.cfg.IsWord (a * b) → s.mem.Valid p3 →
          exec (.mul m p1 p2 p3) s = .next { s with mem := s.mem.set p3.toNat (a * b), head := s.head + 4 })

/-- R83: the encoding, the exceptions in their order, and the effect; the LAST input is taken (R22). -/
def Obligations.InFollowsItsRule : Prop :=
  ∀ (m : Modes) (p1 : Int) (s : State),
    encode (.inp m p1) = [wordOf 3 m, p1] ∧
    (s.inp = [] → exec (.inp m p1) s = .next (s.aborted .inputExhausted (some (wordOf 3 m)) none)) ∧
    ∀ (rest : List Int) (v : Int), s.inp = rest ++ [v] →
      (¬ s.mem.Valid p1 →
        exec (.inp m p1) s = .next (s.aborted .outOfBounds (some (wordOf 3 m)) (some p1))) ∧
      (s.mem.Valid p1 →
        exec (.inp m p1) s = .next { s with mem := s.mem.set p1.toNat v, inp := rest, head := s.head + 2 })

/-- R84: the encoding, the exception, and the effect. -/
def Obligations.OutFollowsItsRule : Prop :=
  ∀ (m : Modes) (p1 : Int) (s : State),
    encode (.out m p1) = [wordOf 4 m, p1] ∧
    (SourceBad s.mem m.m1 p1 →
      exec (.out m p1) s = .next (s.aborted .outOfBounds (some (wordOf 4 m)) (some p1))) ∧
    ∀ v, SourceIs s.mem m.m1 p1 v →
      exec (.out m p1) s = .next { s with out := s.out ++ [v], head := s.head + 2 }

/-- R85: the encoding, the exceptions in their order, and the effect; both operands are resolved whether or not the
branch is taken. -/
def Obligations.JumpIfTrueFollowsItsRule : Prop :=
  ∀ (m : Modes) (p1 p2 : Int) (s : State),
    encode (.jt m p1 p2) = [wordOf 5 m, p1, p2] ∧
    (SourceBad s.mem m.m1 p1 →
      exec (.jt m p1 p2) s = .next (s.aborted .outOfBounds (some (wordOf 5 m)) (some p1))) ∧
    ∀ c, SourceIs s.mem m.m1 p1 c →
      (SourceBad s.mem m.m2 p2 →
        exec (.jt m p1 p2) s = .next (s.aborted .outOfBounds (some (wordOf 5 m)) (some p2))) ∧
      ∀ t, SourceIs s.mem m.m2 p2 t →
        (c ≠ 0 → exec (.jt m p1 p2) s = .next { s with head := t }) ∧
        (c = 0 → exec (.jt m p1 p2) s = .next { s with head := s.head + 3 })

/-- R86: the encoding, the exceptions in their order, and the effect. -/
def Obligations.JumpIfFalseFollowsItsRule : Prop :=
  ∀ (m : Modes) (p1 p2 : Int) (s : State),
    encode (.jf m p1 p2) = [wordOf 6 m, p1, p2] ∧
    (SourceBad s.mem m.m1 p1 →
      exec (.jf m p1 p2) s = .next (s.aborted .outOfBounds (some (wordOf 6 m)) (some p1))) ∧
    ∀ c, SourceIs s.mem m.m1 p1 c →
      (SourceBad s.mem m.m2 p2 →
        exec (.jf m p1 p2) s = .next (s.aborted .outOfBounds (some (wordOf 6 m)) (some p2))) ∧
      ∀ t, SourceIs s.mem m.m2 p2 t →
        (c = 0 → exec (.jf m p1 p2) s = .next { s with head := t }) ∧
        (c ≠ 0 → exec (.jf m p1 p2) s = .next { s with head := s.head + 3 })

/-- R87: the encoding, the exceptions in their order, and the effect. -/
def Obligations.LessThanFollowsItsRule : Prop :=
  ∀ (m : Modes) (p1 p2 p3 : Int) (s : State),
    encode (.lt m p1 p2 p3) = [wordOf 7 m, p1, p2, p3] ∧
    (SourceBad s.mem m.m1 p1 →
      exec (.lt m p1 p2 p3) s = .next (s.aborted .outOfBounds (some (wordOf 7 m)) (some p1))) ∧
    ∀ a, SourceIs s.mem m.m1 p1 a →
      (SourceBad s.mem m.m2 p2 →
        exec (.lt m p1 p2 p3) s = .next (s.aborted .outOfBounds (some (wordOf 7 m)) (some p2))) ∧
      ∀ b, SourceIs s.mem m.m2 p2 b →
        (¬ s.mem.Valid p3 →
          exec (.lt m p1 p2 p3) s = .next (s.aborted .outOfBounds (some (wordOf 7 m)) (some p3))) ∧
        (s.mem.Valid p3 →
          exec (.lt m p1 p2 p3) s =
            .next { s with mem := s.mem.set p3.toNat (if a < b then 1 else 0), head := s.head + 4 })

/-- R88: the encoding, the exceptions in their order, and the effect. -/
def Obligations.EqualsFollowsItsRule : Prop :=
  ∀ (m : Modes) (p1 p2 p3 : Int) (s : State),
    encode (.eq m p1 p2 p3) = [wordOf 8 m, p1, p2, p3] ∧
    (SourceBad s.mem m.m1 p1 →
      exec (.eq m p1 p2 p3) s = .next (s.aborted .outOfBounds (some (wordOf 8 m)) (some p1))) ∧
    ∀ a, SourceIs s.mem m.m1 p1 a →
      (SourceBad s.mem m.m2 p2 →
        exec (.eq m p1 p2 p3) s = .next (s.aborted .outOfBounds (some (wordOf 8 m)) (some p2))) ∧
      ∀ b, SourceIs s.mem m.m2 p2 b →
        (¬ s.mem.Valid p3 →
          exec (.eq m p1 p2 p3) s = .next (s.aborted .outOfBounds (some (wordOf 8 m)) (some p3))) ∧
        (s.mem.Valid p3 →
          exec (.eq m p1 p2 p3) s =
            .next { s with mem := s.mem.set p3.toNat (if a = b then 1 else 0), head := s.head + 4 })

/-- HLT (R89) completes in every state: status becomes Halted, and tape, queues, fault record and parameter stay.
The head after Halt is left out, since "no claim may depend on it" (R89, D10). -/
def Obligations.HaltCompletesEverywhere : Prop :=
  ∀ (m : Modes) (s : State),
    encode (.hlt m) = [wordOf 99 m] ∧
    ∃ t, exec (.hlt m) s = .next t ∧ t.status = .halted ∧ t.mem = s.mem ∧ t.inp = s.inp ∧ t.out = s.out ∧
      t.fault = s.fault ∧ t.cfg = s.cfg

/-- The cell read twice and then written (R80): `ADD p, p, p` doubles it. -/
def Obligations.SourceMayBeTheDestination : Prop :=
  ∀ (m : Modes) (p v : Int) (s : State),
    m.m1 = .position → m.m2 = .position → s.mem.cell p = some v → s.cfg.IsWord (2 * v) →
    exec (.add m p p p) s = .next { s with mem := s.mem.set p.toNat (2 * v), head := s.head + 4 }

/-- The digit of a destination, and the digits of absent parameters, have no effect on an instruction that completes
(R57, R59). -/
def Obligations.UnusedModeDigitsHaveNoEffect : Prop :=
  ∀ (m m' : Modes) (p1 p2 p3 : Int) (s t : State), t.status ≠ .faulted →
    (m'.m1 = m.m1 → m'.m2 = m.m2 →
      (exec (.add m p1 p2 p3) s = .next t → exec (.add m' p1 p2 p3) s = .next t) ∧
      (exec (.mul m p1 p2 p3) s = .next t → exec (.mul m' p1 p2 p3) s = .next t) ∧
      (exec (.lt m p1 p2 p3) s = .next t → exec (.lt m' p1 p2 p3) s = .next t) ∧
      (exec (.eq m p1 p2 p3) s = .next t → exec (.eq m' p1 p2 p3) s = .next t) ∧
      (exec (.jt m p1 p2) s = .next t → exec (.jt m' p1 p2) s = .next t) ∧
      (exec (.jf m p1 p2) s = .next t → exec (.jf m' p1 p2) s = .next t)) ∧
    (m'.m1 = m.m1 → exec (.out m p1) s = .next t → exec (.out m' p1) s = .next t) ∧
    (exec (.inp m p1) s = .next t → exec (.inp m' p1) s = .next t) ∧
    (exec (.hlt m) s = .next t → exec (.hlt m') s = .next t)

/-! ## Frames -/

/-- ADD, MUL, LT and EQ store one cell, at the raw address `p3`, and change nothing else but the head; a fault they
raise changes status and fault alone (R74): it stores nothing and the head stays. A state already Faulted is left out
of that clause alone, since there the status does not tell a fault from a completion; no step starts in it (R77). -/
def Obligations.ThreeOperandFrame : Prop :=
  ∀ (i : Instr) (m : Modes) (p1 p2 p3 : Int) (s t : State),
    i ∈ [Instr.add m p1 p2 p3, .mul m p1 p2 p3, .lt m p1 p2 p3, .eq m p1 p2 p3] →
    exec i s = .next t →
    (∀ a, a ≠ p3 → t.mem.cell a = s.mem.cell a) ∧ t.mem.length = s.mem.length ∧
    t.inp = s.inp ∧ t.out = s.out ∧ t.cfg = s.cfg ∧
    (t.status ≠ .faulted → t.status = s.status ∧ t.fault = s.fault) ∧
    (s.status ≠ .faulted → t.status = .faulted → t.mem = s.mem ∧ t.head = s.head)

/-- IN stores one cell, at the raw address `p1`, takes the last input, and changes nothing else but the head; a fault
it raises changes status and fault alone (R74): it stores nothing, takes no input, and the head stays. -/
def Obligations.InputFrame : Prop :=
  ∀ (m : Modes) (p1 : Int) (s t : State), exec (.inp m p1) s = .next t →
    (∀ a, a ≠ p1 → t.mem.cell a = s.mem.cell a) ∧ t.mem.length = s.mem.length ∧
    (t.inp = s.inp ∨ t.inp = s.inp.dropLast) ∧ t.out = s.out ∧ t.cfg = s.cfg ∧
    (t.status ≠ .faulted → t.status = s.status ∧ t.fault = s.fault ∧ t.inp = s.inp.dropLast) ∧
    (s.status ≠ .faulted → t.status = .faulted → t.mem = s.mem ∧ t.inp = s.inp ∧ t.head = s.head)

/-- OUT, JT, JF and HLT store nothing: every cell reads as before. Only OUT changes the output list, only HLT and a
fault change the status; a fault changes status and fault alone (R74): nothing is output and the head stays. -/
def Obligations.NonStoringFrame : Prop :=
  ∀ (m : Modes) (p1 p2 : Int) (s t : State),
    (∀ i ∈ [Instr.out m p1, .jt m p1 p2, .jf m p1 p2, .hlt m], exec i s = .next t →
      (∀ a, t.mem.cell a = s.mem.cell a) ∧ t.mem.length = s.mem.length ∧ t.inp = s.inp ∧ t.cfg = s.cfg ∧
      (t.status ≠ .faulted → t.fault = s.fault) ∧
      (s.status ≠ .faulted → t.status = .faulted → t.out = s.out ∧ t.head = s.head)) ∧
    (∀ i ∈ [Instr.jt m p1 p2, .jf m p1 p2, .hlt m], exec i s = .next t → t.out = s.out) ∧
    (∀ i ∈ [Instr.out m p1, .jt m p1 p2, .jf m p1 p2], exec i s = .next t →
      t.status ≠ .faulted → t.status = s.status)

/-! ## Faults -/

/-- R74: the faulting instruction commits nothing, and the record holds the head of that instruction. This is about
the model's state; the host observes the record only (R108). -/
def Obligations.FaultingStepCommitsNothing : Prop :=
  ∀ s t : State, step s = .next t → t.status = .faulted →
    ∃ r, r.head = s.head ∧ t = { s with status := .faulted, fault := some r }

/-- R96, row by row: what the record of a faulting step holds. -/
def Obligations.FaultRecordFollowsItsTable : Prop :=
  ∀ (s t : State) (r : FaultRecord), step s = .next t → t.status = .faulted → t.fault = some r →
    r.head = s.head ∧ r.word = s.mem.cell s.head ∧
    (r.cause = .outOfBounds → r.word = none → r.addr = some s.head) ∧
    (r.cause = .outOfBounds → r.word ≠ none → ∃ a, r.addr = some a ∧ ¬ s.mem.Valid a) ∧
    (r.cause ≠ .outOfBounds → r.word ≠ none ∧ r.addr = none)

/-- R99: a step reports the fault of the first condition of the list that holds, and completes if none does. The list
`faultConditions` is written from R99 and R96, apart from the meanings. -/
def Obligations.FirstFaultOfTheOrderIsReported : Prop :=
  ∀ s : State, s.status = .running →
    (∀ r, firstFault s = some r → step s = .next { s with status := .faulted, fault := some r }) ∧
    (firstFault s = none → ∃ t, step s = .next t ∧ t.status ≠ .faulted)

/-- R77: no step in Halted or Faulted; LOAD makes the machine Running again. -/
def Obligations.NoStepOnceStopped : Prop :=
  ∀ s : State, s.status ≠ .running →
    (∀ t, step s ≠ .next t) ∧
    ∀ image inputs : List Int, (∀ v ∈ image, s.cfg.IsWord v) → (∀ v ∈ inputs, s.cfg.IsWord v) →
      ∃ t, hostLoad s image inputs = .next t ∧ t.status = .running

/-! ## Control flow -/

/-- "Halt is the only successful end of a run" (R89): a step that ends in Halted ran an HLT word. -/
def Obligations.OnlyHaltReachesHalted : Prop :=
  ∀ s t : State, step s = .next t → t.status = .halted →
    0 ≤ s.head ∧ ∃ m rest, decode (s.mem.drop s.head.toNat) = .ok (.hlt m, rest)

/-- R72 and R73 for every instruction after which the machine goes on: the head advances by `1 + n`, unless a jump
is taken, which sets it to operand 2 and adds nothing. -/
def Obligations.HeadAdvancesOrJumps : Prop :=
  ∀ (s t : State) (i : Instr) (rest : List Int),
    step s = .next t → t.status = .running → decode (s.mem.drop s.head.toNat) = .ok (i, rest) →
    (i.opcode ≠ .jt → i.opcode ≠ .jf → t.head = s.head + 1 + i.opcode.paramCount) ∧
    (∀ m p1 p2 c a, i = .jt m p1 p2 → SourceIs s.mem m.m1 p1 c → SourceIs s.mem m.m2 p2 a →
      t.head = if c ≠ 0 then a else s.head + 1 + i.opcode.paramCount) ∧
    (∀ m p1 p2 c a, i = .jf m p1 p2 → SourceIs s.mem m.m1 p1 c → SourceIs s.mem m.m2 p2 a →
      t.head = if c = 0 then a else s.head + 1 + i.opcode.paramCount)

/-- A taken jump to an invalid target completes with that head; the next step faults at its fetch (R17, D7). -/
def Obligations.JumpOutsideTheTapeFaultsAtTheNextFetch : Prop :=
  ∀ (m : Modes) (p1 p2 c a : Int) (s : State),
    s.status = .running → SourceIs s.mem m.m1 p1 c → SourceIs s.mem m.m2 p2 a → ¬ s.mem.Valid a →
    (c ≠ 0 → exec (.jt m p1 p2) s = .next { s with head := a }) ∧
    (c = 0 → exec (.jf m p1 p2) s = .next { s with head := a }) ∧
    step { s with head := a } =
      .next { s with
        head := a
        status := .faulted
        fault := some { cause := .outOfBounds, head := a, word := none, addr := some a } }

/-- A jump that is taken to itself never ends: JT with a condition other than 0 (R85's corner case), JF with the
condition 0 (R86), each with its own head as target. The engine has no step limit (R76). -/
def Obligations.JumpToItselfNeverEnds : Prop :=
  ∀ (s : State) (m : Modes) (p1 p2 c : Int) (rest : List Int),
    s.status = .running → 0 ≤ s.head → SourceIs s.mem m.m1 p1 c → SourceIs s.mem m.m2 p2 s.head →
    (decode (s.mem.drop s.head.toNat) = .ok (.jt m p1 p2, rest) → c ≠ 0 → Hangs s ∧ ¬ ∃ t, Run s t) ∧
    (decode (s.mem.drop s.head.toNat) = .ok (.jf m p1 p2, rest) → c = 0 → Hangs s ∧ ¬ ∃ t, Run s t)

/-- A write is seen by the very next instruction fetch (R47): an ADD that writes the word at the next head decides
what the next step does. -/
def Obligations.WriteIsSeenByTheNextFetch : Prop :=
  ∀ (s : State) (m : Modes) (p1 p2 a b : Int),
    s.status = .running → SourceIs s.mem m.m1 p1 a → SourceIs s.mem m.m2 p2 b → s.cfg.IsWord (a + b) →
    s.mem.Valid (s.head + 4) →
    ∃ t, exec (.add m p1 p2 (s.head + 4)) s = .next t ∧ t.head = s.head + 4 ∧
      t.mem.cell t.head = some (a + b) ∧
      (decodeWord (a + b) = .error .unknownOpcode → step t = .next (t.aborted .unknownOpcode (some (a + b)) none)) ∧
      (∀ m', decodeWord (a + b) = .ok (.hlt, m') → ∃ u, step t = .next u ∧ u.status = .halted)

/-! ## Invariants of the machine -/

/-- The state after reset meets the invariant. Its empty image, its empty inputs and its 64 bits are the model's
choices (log entries 1 and 3). -/
def Obligations.InvariantHoldsAtReset : Prop := State.Inv State.reset

/-- Every step keeps the invariant: Words in tape and queues, and a precise fault record exactly in Faulted. The
smallest legal width is inferred (log entry 13). -/
def Obligations.StepKeepsInvariant : Prop := ∀ s t : State, s.Inv → step s = .next t → t.Inv

/-- Every LOAD that is not refused gives a state that meets the invariant, on a machine of legal width (log entry
13). -/
def Obligations.AcceptedLoadMeetsInvariant : Prop :=
  ∀ (c : Config) (image inputs : List Int) (s : State), c.Legal → boot c image inputs = .next s → s.Inv

/-- The tape keeps its size, and the machine its width, for the whole run (R38). -/
def Obligations.TapeSizeIsFixedForTheRun : Prop :=
  ∀ (n : Nat) (s : State), (runSteps n s).mem.length = s.mem.length ∧ (runSteps n s).cfg = s.cfg

/-- The output list is append-only during a run, and a step appends at most one value (R23, R71). -/
def Obligations.OutputsAreOnlyAppended : Prop :=
  (∀ (n : Nat) (s : State), s.out <+: (runSteps n s).out) ∧
  ∀ s t : State, step s = .next t → t.out.length ≤ s.out.length + 1

/-- Inputs are only ever taken, from the end of the list, at most one a step (R22, R71). -/
def Obligations.InputsAreOnlyTakenFromTheEnd : Prop :=
  (∀ (n : Nat) (s : State), (runSteps n s).inp <+: s.inp) ∧
  ∀ s t : State, step s = .next t → t.inp = s.inp ∨ s.inp ≠ [] ∧ t.inp = s.inp.dropLast

/-- The engine never reads its output list (R23): whatever stands before it changes nothing else. -/
def Obligations.OutputsAreNeverRead : Prop :=
  ∀ (s t : State) (o : List Int), step s = .next t →
    step { s with out := o ++ s.out } = .next { t with out := o ++ t.out }

/-! ## The host's transactions and runs -/

/-- LOAD replaces the whole run state (R28, R109). That it keeps the machine's width is no clause of these rules: it
is the model's inference, log entry 7 (DEDUCED). -/
def Obligations.LoadSetsEveryField : Prop :=
  ∀ (s : State) (image inputs : List Int), s.status ≠ .running →
    (∀ v ∈ image, s.cfg.IsWord v) → (∀ v ∈ inputs, s.cfg.IsWord v) →
    hostLoad s image inputs =
      .next { cfg := s.cfg, mem := image, head := 0, status := .running, fault := none, inp := inputs, out := [] }

/-- A LOAD with a value outside the Word range is refused (R112), and so is a LOAD while CORE is Running (R25). That a
refusal is the model's answer, and its names, are log entry 7. -/
def Obligations.LoadIsRefusedOutsideItsDomain : Prop :=
  ∀ (s : State) (image inputs : List Int),
    (s.status = .running → hostLoad s image inputs = .refused .loadWhileRunning) ∧
    (∀ v, s.status ≠ .running → (v ∈ image ∨ v ∈ inputs) → ¬ s.cfg.IsWord v →
      hostLoad s image inputs = .refused .loadOutOfRange)

/-- The empty program is allowed and faults at the first fetch (R7). -/
def Obligations.EmptyProgramFaultsAtTheFirstFetch : Prop :=
  ∀ (c : Config) (inputs : List Int), (∀ v ∈ inputs, c.IsWord v) →
    ∃ s, boot c [] inputs = .next s ∧ step s = .next (s.aborted .outOfBounds none (some 0))

/-- What STATUS, READ_MEM and READ_OUT give, by status (R25): nothing while Running, mem and out only after Halted. -/
def Obligations.HostReadsByStatus : Prop :=
  ∀ s : State,
    (s.status = .running → readStatus s = none ∧ readMem s = none ∧ readOut s = none ∧ observe s = none) ∧
    (s.status = .halted →
      readStatus s = some (.halted, s.fault) ∧ readMem s = some s.mem ∧ readOut s = some s.out) ∧
    (s.status = .faulted → readStatus s = some (.faulted, s.fault) ∧ readMem s = none ∧ readOut s = none)

/-- A run has at most one end state (R79). -/
def Obligations.RunHasOneEndState : Prop := ∀ s t u : State, Run s t → Run s u → t = u

/-- R108: a run ends in exactly one of three ways: Halted, Faulted, or never. -/
def Obligations.RunHaltsFaultsOrHangs : Prop :=
  ∀ s : State,
    ((∃ t, Run s t ∧ t.status = .halted) ∧ (¬ ∃ t, Run s t ∧ t.status = .faulted) ∧ ¬ Hangs s) ∨
    ((¬ ∃ t, Run s t ∧ t.status = .halted) ∧ (∃ t, Run s t ∧ t.status = .faulted) ∧ ¬ Hangs s) ∨
    ((¬ ∃ t, Run s t ∧ t.status = .halted) ∧ (¬ ∃ t, Run s t ∧ t.status = .faulted) ∧ Hangs s)

/-- A run from a state that meets the invariant, if it ends, is observed as success with memory and output, or as
failure with the fault record alone (R108). -/
def Obligations.FinishedRunIsObserved : Prop :=
  ∀ s t : State, s.Inv → Run s t →
    (t.status = .halted ∧ observe t = some (.success t.mem t.out)) ∨
    ∃ r, t.status = .faulted ∧ t.fault = some r ∧ observe t = some (.failure r)

/-- A second RUN without a LOAD takes no step (R113). -/
def Obligations.SecondRunTakesNoStep : Prop :=
  ∀ s t : State, Run s t → (∀ n, runSteps n t = t) ∧ ∀ u, Run t u → u = t

/-- Instances share nothing (R14, R104): a step of one leaves every other as it was, and steps of two instances may
be taken in either order. -/
def Obligations.InstancesAreIndependent : Prop :=
  ∀ (j k : Nat) (sys : List State), j ≠ k →
    (stepInstance k sys)[j]? = sys[j]? ∧
    stepInstance j (stepInstance k sys) = stepInstance k (stepInstance j sys)

/-- The output of a run that halts can be fed to another instance of the same width (R27, R104): the LOAD is accepted,
with those values as its inputs and `extra` after them. -/
def Obligations.OutputFeedsAnotherInstance : Prop :=
  ∀ (s t : State) (image extra : List Int), s.Inv → Run s t → t.status = .halted →
    (∀ v ∈ image, s.cfg.IsWord v) → (∀ v ∈ extra, s.cfg.IsWord v) →
    feedOutput t s.cfg image extra = some (.next (State.load s.cfg image (t.out ++ extra)))

/-- R64's table: what the six pseudo-instructions encode to and do. -/
def Obligations.PseudoInstructionsExpandAsListed : Prop :=
  ∀ (v a d : Int) (s : State),
    Asm.assemble [.jmp (.num v)] = some [1105, 1, v] ∧
    (∃ i, decode [1105, 1, v] = .ok (i, []) ∧ exec i s = .next { s with head := v }) ∧
    Asm.assemble [.jmpi (.num a)] = some [105, 1, a] ∧
    (∀ u, s.mem.cell a = some u →
      ∃ i, decode [105, 1, a] = .ok (i, []) ∧ exec i s = .next { s with head := u }) ∧
    Asm.assemble [.mov (.pos (.num a)) (.num d)] = some [1001, a, 0, d] ∧
    (∀ u, s.mem.cell a = some u → s.cfg.IsWord u → s.mem.Valid d →
      ∃ i, decode [1001, a, 0, d] = .ok (i, []) ∧
        exec i s = .next { s with mem := s.mem.set d.toNat u, head := s.head + 4 }) ∧
    Asm.assemble [.mov (.imm (.num v)) (.num d)] = some [1101, v, 0, d] ∧
    (s.cfg.IsWord v → s.mem.Valid d →
      ∃ i, decode [1101, v, 0, d] = .ok (i, []) ∧
        exec i s = .next { s with mem := s.mem.set d.toNat v, head := s.head + 4 }) ∧
    Asm.assemble [.neg (.pos (.num a)) (.num d)] = some [1002, a, -1, d] ∧
    (∀ u, s.mem.cell a = some u → s.cfg.IsWord (-u) → s.mem.Valid d →
      ∃ i, decode [1002, a, -1, d] = .ok (i, []) ∧
        exec i s = .next { s with mem := s.mem.set d.toNat (-u), head := s.head + 4 }) ∧
    Asm.assemble [.clr (.num d)] = some [1101, 0, 0, d] ∧
    (s.mem.Valid d →
      ∃ i, decode [1101, 0, 0, d] = .ok (i, []) ∧
        exec i s = .next { s with mem := s.mem.set d.toNat 0, head := s.head + 4 }) ∧
    Asm.assemble [.nop] = some [1106, 1, 0] ∧
    ∃ i, decode [1106, 1, 0] = .ok (i, []) ∧ exec i s = .next { s with head := s.head + 3 }
end

