-- ==== Sys2Proof/Laws/Decode.lean ====
section
/-! SUPPORT. Laws of the decoder and the encoder. -/

namespace Sys2Proof

theorem Instr.params_length (i : Instr) : i.params.length = i.opcode.paramCount := by
  cases i <;> rfl

theorem Instr.ofParams_params (i : Instr) : Instr.ofParams i.opcode i.modes i.params = i := by
  cases i <;> rfl

theorem Instr.opcode_ofParams (op : Opcode) (m : Modes) (ps : List Int) : (Instr.ofParams op m ps).opcode = op := by
  cases op <;> rfl

theorem Instr.modes_ofParams (op : Opcode) (m : Modes) (ps : List Int) : (Instr.ofParams op m ps).modes = m := by
  cases op <;> rfl

theorem Instr.params_ofParams (op : Opcode) (m : Modes) (ps : List Int) (h : ps.length = op.paramCount) :
    (Instr.ofParams op m ps).params = ps := by
  rcases ps with _ | ⟨a, _ | ⟨b, _ | ⟨c, _ | ⟨d, l⟩⟩⟩⟩ <;> cases op <;>
    first | rfl | simp [Opcode.paramCount] at h

theorem Opcode.ofCode_code (op : Opcode) : Opcode.ofCode op.code = some op := by
  cases op <;> rfl

theorem Opcode.ofCode_eq_some {n : Nat} {op : Opcode} (h : Opcode.ofCode n = some op) : n = op.code := by
  unfold Opcode.ofCode at h
  split at h <;> first | (cases h; done) | (injection h with h; subst h; rfl)

theorem Opcode.ofCode_eq_none_iff (n : Nat) :
    Opcode.ofCode n = none ↔ n ∉ [1, 2, 3, 4, 5, 6, 7, 8, 99] := by
  constructor
  · intro h hn
    simp only [List.mem_cons, List.not_mem_nil, or_false] at hn
    rcases hn with rfl | rfl | rfl | rfl | rfl | rfl | rfl | rfl | rfl <;> cases h
  · intro h
    cases hop : Opcode.ofCode n with
    | none => rfl
    | some op =>
      have := Opcode.ofCode_eq_some hop
      subst this
      cases op <;> simp [Opcode.code] at h

theorem Mode.ofDigit_eq_some_iff (n : Nat) (m : Mode) : Mode.ofDigit n = some m ↔ n = m.digit := by
  unfold Mode.ofDigit Mode.digit
  split <;> cases m <;> simp_all

theorem Mode.ofDigit_eq_none_iff (n : Nat) : Mode.ofDigit n = none ↔ 1 < n := by
  unfold Mode.ofDigit
  split <;> simp_all
  omega

theorem decodeModes_eq_some_iff (w : Nat) (m : Modes) :
    decodeModes w = some m ↔ digit 2 w = m.m1.digit ∧ digit 3 w = m.m2.digit ∧ digit 4 w = m.m3.digit := by
  simp only [← Mode.ofDigit_eq_some_iff]
  unfold decodeModes
  constructor
  · intro h
    split at h
    · cases h; simp_all
    · cases h
  · rintro ⟨h1, h2, h3⟩
    simp [h1, h2, h3]

theorem decodeModes_eq_none_iff (w : Nat) :
    decodeModes w = none ↔ 1 < digit 2 w ∨ 1 < digit 3 w ∨ 1 < digit 4 w := by
  simp only [← Mode.ofDigit_eq_none_iff]
  unfold decodeModes
  cases Mode.ofDigit (digit 2 w) <;> cases Mode.ofDigit (digit 3 w) <;> cases Mode.ofDigit (digit 4 w) <;> simp

/-- The decoder reads back every word the encoder writes. -/
theorem decodeWord_encodeWord (op : Opcode) (m : Modes) : decodeWord (encodeWord op m) = .ok (op, m) := by
  obtain ⟨m1, m2, m3⟩ := m
  cases op <;> cases m1 <;> cases m2 <;> cases m3 <;> rfl

/-- A word the decoder accepts is the one the encoder writes. -/
theorem eq_encodeWord_of_decodeWord {w : Int} {op : Opcode} {m : Modes} (h : decodeWord w = .ok (op, m)) :
    w = encodeWord op m := by
  unfold decodeWord at h
  split at h
  · cases h
  · split at h
    · cases h
    · rename_i hneg _ op' hop
      split at h
      · cases h
      · split at h
        · cases h
        · rename_i hbig _ m' hm
          cases h
          have hc := Opcode.ofCode_eq_some hop
          obtain ⟨h1, h2, h3⟩ := (decodeModes_eq_some_iff _ _).1 hm
          simp only [digit, Nat.reducePow] at h1 h2 h3
          unfold encodeWord
          omega

theorem decodeWord_eq_ok_iff (w : Int) (op : Opcode) (m : Modes) :
    decodeWord w = .ok (op, m) ↔ w = encodeWord op m :=
  ⟨eq_encodeWord_of_decodeWord, fun h => h ▸ decodeWord_encodeWord op m⟩

/-- The instruction a list begins with has its word first and its parameters among the words after it. -/
theorem words_of_decode {w : Int} {ws rest : List Int} {i : Instr} (h : decode (w :: ws) = .ok (i, rest)) :
    w = i.word ∧ ∀ p ∈ i.params, p ∈ ws := by
  simp only [decode] at h
  split at h
  · cases h
  · rename_i hd
    split at h
    · cases h
    · cases h
      rw [Instr.word, Instr.opcode_ofParams, Instr.modes_ofParams, Instr.params_ofParams _ _ _ (by simp; omega)]
      exact ⟨eq_encodeWord_of_decodeWord hd, fun p hp => List.mem_of_mem_take hp⟩

/-- An instruction word is between 1 and 11199. -/
theorem encodeWord_bounds (op : Opcode) (m : Modes) : 1 ≤ encodeWord op m ∧ encodeWord op m ≤ 11199 := by
  obtain ⟨m1, m2, m3⟩ := m
  cases op <;> cases m1 <;> cases m2 <;> cases m3 <;> decide

end Sys2Proof
end

