-- ==== Sys2Proof/Laws/State.lean ====
section
/-! SUPPORT. The fields of the states the model's updates give, one lemma a field, so that no proof unfolds an update. -/

namespace Sys2Proof.Machine

section takeFault

variable (s : State) (w : Option Int) (r : Raise)

@[simp] theorem State.takeFault_cfg : (s.takeFault w r).cfg = s.cfg := rfl
@[simp] theorem State.takeFault_mem : (s.takeFault w r).mem = s.mem := rfl
@[simp] theorem State.takeFault_head : (s.takeFault w r).head = s.head := rfl
@[simp] theorem State.takeFault_status : (s.takeFault w r).status = .faulted := rfl
@[simp] theorem State.takeFault_fault :
    (s.takeFault w r).fault = some { cause := r.cause, head := s.head, word := w, addr := r.addr } := rfl
@[simp] theorem State.takeFault_inp : (s.takeFault w r).inp = s.inp := rfl
@[simp] theorem State.takeFault_out : (s.takeFault w r).out = s.out := rfl

end takeFault

section load

variable (c : Config) (image inputs : List Int)

@[simp] theorem State.load_cfg : (State.load c image inputs).cfg = c := rfl
@[simp] theorem State.load_mem : (State.load c image inputs).mem = image := rfl
@[simp] theorem State.load_head : (State.load c image inputs).head = 0 := rfl
@[simp] theorem State.load_status : (State.load c image inputs).status = .running := rfl
@[simp] theorem State.load_fault : (State.load c image inputs).fault = none := rfl
@[simp] theorem State.load_inp : (State.load c image inputs).inp = inputs := rfl
@[simp] theorem State.load_out : (State.load c image inputs).out = [] := rfl

end load

section withFetchWord

variable (s : State) (nbits w : Nat)

@[simp] theorem State.withFetchWord_cfg : (s.withFetchWord nbits w).cfg = s.cfg := rfl
@[simp] theorem State.withFetchWord_mem :
    (s.withFetchWord nbits w).mem = overlay s.mem s.head.toNat (tableWords nbits w) := rfl
@[simp] theorem State.withFetchWord_head : (s.withFetchWord nbits w).head = s.head.toNat := rfl
@[simp] theorem State.withFetchWord_status : (s.withFetchWord nbits w).status = .running := rfl
@[simp] theorem State.withFetchWord_fault : (s.withFetchWord nbits w).fault = none := rfl
@[simp] theorem State.withFetchWord_inp : (s.withFetchWord nbits w).inp = s.inp := rfl
@[simp] theorem State.withFetchWord_out : (s.withFetchWord nbits w).out = s.out := rfl

end withFetchWord

end Sys2Proof.Machine
end

