-- ==== Sys2Proof/Laws/Ops.lean ====
section
/-! SUPPORT. What the shared operations can do: one lemma an operation. -/

namespace Sys2Proof.Machine

/-! ## The tape -/

theorem Memory.cell_eq_some_iff (m : Memory) (a : Int) (v : Int) :
    m.cell a = some v ↔ 0 ≤ a ∧ m[a.toNat]? = some v := by
  unfold Memory.cell
  split <;> simp_all

theorem Memory.cell_eq_none_iff (m : Memory) (a : Int) : m.cell a = none ↔ ¬ m.Valid a := by
  unfold Memory.cell Memory.Valid
  split
  · rw [List.getElem?_eq_none_iff]
    omega
  · simp
    omega

theorem Memory.valid_of_cell {m : Memory} {a : Int} {v : Int} (h : m.cell a = some v) : m.Valid a := by
  by_contra hn
  rw [(m.cell_eq_none_iff a).2 hn] at h
  cases h

theorem Memory.cell_of_valid {m : Memory} {a : Int} (h : m.Valid a) : ∃ v, m.cell a = some v := by
  cases hc : m.cell a with
  | none => exact absurd h ((m.cell_eq_none_iff a).1 hc)
  | some v => exact ⟨v, rfl⟩

theorem Memory.mem_of_cell {m : Memory} {a : Int} {v : Int} (h : m.cell a = some v) : v ∈ m :=
  List.mem_of_getElem? ((m.cell_eq_some_iff a v).1 h).2

/-- Reading the written cell gives the value written. -/
theorem Memory.cell_set_same {m : Memory} {a : Int} (v : Int) (h : m.Valid a) :
    Memory.cell (m.set a.toNat v) a = some v := by
  have : a.toNat < m.length := by unfold Memory.Valid at h; omega
  simp [Memory.cell, h.1, this]

/-- A write leaves every other cell alone. -/
theorem Memory.cell_set_other {m : Memory} {a b : Int} (v : Int) (ha : 0 ≤ a) (h : b ≠ a) :
    Memory.cell (m.set a.toNat v) b = m.cell b := by
  unfold Memory.cell
  split
  · rw [List.getElem?_set_ne]
    omega
  · rfl

theorem memRead_ok_iff (m : Memory) (a : Int) (v : Int) : memRead m a = .ok v ↔ m.cell a = some v := by
  unfold memRead
  split <;> simp_all

theorem memRead_error_iff (m : Memory) (a : Int) (r : Raise) :
    memRead m a = .error r ↔ ¬ m.Valid a ∧ r = .outOfBounds a := by
  rw [← Memory.cell_eq_none_iff]
  unfold memRead
  cases m.cell a <;> simp [eq_comm]

theorem memWrite_ok_iff (m : Memory) (a : Int) (v : Int) (m' : Memory) :
    memWrite m a v = .ok m' ↔ m.Valid a ∧ m' = m.set a.toNat v := by
  unfold memWrite
  split <;> rename_i h
  · exact ⟨fun he => ⟨h, (Except.ok.inj he).symm⟩, fun he => by rw [he.2]⟩
  · exact ⟨nofun, fun he => absurd he.1 h⟩

theorem memWrite_error_iff (m : Memory) (a : Int) (v : Int) (r : Raise) :
    memWrite m a v = .error r ↔ ¬ m.Valid a ∧ r = .outOfBounds a := by
  unfold memWrite
  split <;> simp_all [eq_comm]

/-- A write keeps the tape's form: cells that are Words, as many as before (R38). -/
theorem memWrite_keeps_wf {c : Config} {m m' : Memory} {a : Int} {v : Int} (h : memWrite m a v = .ok m')
    (hm : m.wf c) (hv : c.IsWord v) : m'.wf c ∧ m'.length = m.length := by
  obtain ⟨-, rfl⟩ := (memWrite_ok_iff _ _ _ _).1 h
  refine ⟨fun u hu => ?_, by simp⟩
  rcases List.mem_or_eq_of_mem_set hu with hu | rfl
  · exact hm u hu
  · exact hv

/-- Words read from a tape of Words are Words. -/
theorem memRead_isWord {c : Config} {m : Memory} {a : Int} {v : Int} (h : memRead m a = .ok v) (hm : m.wf c) :
    c.IsWord v :=
  hm v (Memory.mem_of_cell ((memRead_ok_iff _ _ _).1 h))

/-- Placing Words on a tape keeps its form. -/
theorem overlay_keeps_wf {c : Config} {m : Memory} (a : Nat) {ws : List Int} (hm : m.wf c)
    (hw : ∀ v ∈ ws, c.IsWord v) : Memory.wf c (overlay m a ws) := by
  intro v hv
  unfold overlay at hv
  rcases List.mem_append.1 hv with hv | hv
  · rcases List.mem_append.1 hv with hv | hv
    · rcases List.mem_append.1 (List.mem_of_mem_take hv) with hv | hv
      · exact hm v hv
      · rw [(List.mem_replicate.1 hv).2]
        have : (0 : Int) < 2 ^ (c.wordBits - 1) := by positivity
        constructor <;> omega
    · exact hw v hv
  · exact hm v (List.mem_of_mem_drop hv)

theorem reset_memory_wf : State.reset.mem.wf State.reset.cfg := by
  simp [State.reset, Memory.wf]

/-! ## The queues -/

theorem popInput_ok_iff (q : List Int) (v : Int) (rest : List Int) :
    popInput q = .ok (v, rest) ↔ q = rest ++ [v] := by
  unfold popInput
  constructor
  · intro h
    split at h
    · rename_i u hu
      cases h
      obtain ⟨l, rfl⟩ := List.getLast?_eq_some_iff.1 hu
      simp
    · cases h
  · rintro rfl
    simp

theorem popInput_error_iff (q : List Int) (r : Raise) :
    popInput q = .error r ↔ q = [] ∧ r = { cause := .inputExhausted, addr := none } := by
  unfold popInput
  split
  · rename_i u hu
    simp
    rintro rfl
    simp at hu
  · simp_all [eq_comm]

/-! ## Operands, conditions and the end of an instruction -/

theorem checkRange_ok_iff (c : Config) (r v : Int) : checkRange c r = .ok v ↔ c.IsWord r ∧ v = r := by
  unfold checkRange
  split <;> rename_i h
  · exact ⟨fun he => ⟨h, (Except.ok.inj he).symm⟩, fun he => by rw [he.2]⟩
  · exact ⟨nofun, fun he => absurd he.1 h⟩

theorem checkRange_error_iff (c : Config) (r : Int) (e : Raise) :
    checkRange c r = .error e ↔ ¬ c.IsWord r ∧ e = { cause := .overflow, addr := none } := by
  unfold checkRange
  split <;> simp_all [eq_comm]

theorem operand_ok_iff (m : Memory) (d : Mode) (p v : Int) :
    operand m d p = .ok v ↔ d = .immediate ∧ v = p ∨ d = .position ∧ m.cell p = some v := by
  cases d
  · simp [operand, memRead_ok_iff]
  · simp [operand, eq_comm]

theorem operand_error_iff (m : Memory) (d : Mode) (p : Int) (r : Raise) :
    operand m d p = .error r ↔ d = .position ∧ ¬ m.Valid p ∧ r = .outOfBounds p := by
  cases d <;> simp [operand, memRead_error_iff]

/-- What the F3 shape can do when it completes. -/
theorem binary_ok_iff (op : Opcode) (f : Int → Int → Except Raise Int) (m : Modes) (p1 p2 p3 : Int) (s t : State) :
    binary op f m p1 p2 p3 s = .ok t ↔
      ∃ a b r, operand s.mem m.m1 p1 = .ok a ∧ operand s.mem m.m2 p2 = .ok b ∧ f a b = .ok r ∧ s.mem.Valid p3 ∧
        t = { s with mem := s.mem.set p3.toNat r, head := s.nextHead op } := by
  unfold binary
  cases h1 : operand s.mem m.m1 p1 with
  | error e => simp [bind, Except.bind]
  | ok a =>
    cases h2 : operand s.mem m.m2 p2 with
    | error e => simp [bind, Except.bind]
    | ok b =>
      cases h3 : f a b with
      | error e => simp [bind, Except.bind, h3]
      | ok r =>
        cases h4 : memWrite s.mem p3 r with
        | error e =>
          have := (memWrite_error_iff _ _ _ _).1 h4
          simp [bind, Except.bind, h3, h4, this.1]
        | ok m' =>
          obtain ⟨hv, rfl⟩ := (memWrite_ok_iff _ _ _ _).1 h4
          simp only [bind, Except.bind, pure, Except.pure, h3, h4, Except.ok.injEq]
          exact ⟨fun h => ⟨a, b, r, rfl, rfl, h3, hv, h.symm⟩, by
            rintro ⟨_, _, _, ⟨⟩, ⟨⟩, h, -, rfl⟩
            rw [h3] at h
            cases h
            rfl⟩

/-- Which fault the F3 shape raises, the first of its checks that fails (R70, R99). -/
theorem binary_error_iff (op : Opcode) (f : Int → Int → Except Raise Int) (m : Modes) (p1 p2 p3 : Int) (s : State)
    (e : Raise) :
    binary op f m p1 p2 p3 s = .error e ↔
      operand s.mem m.m1 p1 = .error e ∨
      (∃ a, operand s.mem m.m1 p1 = .ok a ∧ operand s.mem m.m2 p2 = .error e) ∨
      (∃ a b, operand s.mem m.m1 p1 = .ok a ∧ operand s.mem m.m2 p2 = .ok b ∧ f a b = .error e) ∨
      ∃ a b r, operand s.mem m.m1 p1 = .ok a ∧ operand s.mem m.m2 p2 = .ok b ∧ f a b = .ok r ∧
        ¬ s.mem.Valid p3 ∧ e = .outOfBounds p3 := by
  unfold binary
  cases h1 : operand s.mem m.m1 p1 with
  | error e => simp [bind, Except.bind]
  | ok a =>
    cases h2 : operand s.mem m.m2 p2 with
    | error e => simp [bind, Except.bind]
    | ok b =>
      cases h3 : f a b with
      | error e => simp [bind, Except.bind, h3]
      | ok r =>
        cases h4 : memWrite s.mem p3 r with
        | error e' =>
          obtain ⟨hv, rfl⟩ := (memWrite_error_iff _ _ _ _).1 h4
          simp [bind, Except.bind, h3, h4, hv, eq_comm]
        | ok m' =>
          have hv := ((memWrite_ok_iff _ _ _ _).1 h4).1
          simp [bind, Except.bind, pure, Except.pure, h3, h4, hv]

/-- What the F2 shape can do when it completes. -/
theorem branch_ok_iff (op : Opcode) (taken : Int → Bool) (m : Modes) (p1 p2 : Int) (s t : State) :
    branch op taken m p1 p2 s = .ok t ↔
      ∃ c a, operand s.mem m.m1 p1 = .ok c ∧ operand s.mem m.m2 p2 = .ok a ∧
        t = { s with head := if taken c then a else s.nextHead op } := by
  unfold branch
  cases h1 : operand s.mem m.m1 p1 with
  | error e => simp [bind, Except.bind]
  | ok c =>
    cases h2 : operand s.mem m.m2 p2 with
    | error e => simp [bind, Except.bind]
    | ok a =>
      simp only [bind, Except.bind, pure, Except.pure, Except.ok.injEq]
      exact ⟨fun h => ⟨c, a, rfl, rfl, h.symm⟩, by rintro ⟨_, _, rfl, rfl, rfl⟩; rfl⟩

/-- Which fault the F2 shape raises. -/
theorem branch_error_iff (op : Opcode) (taken : Int → Bool) (m : Modes) (p1 p2 : Int) (s : State) (e : Raise) :
    branch op taken m p1 p2 s = .error e ↔
      operand s.mem m.m1 p1 = .error e ∨
      ∃ c, operand s.mem m.m1 p1 = .ok c ∧ operand s.mem m.m2 p2 = .error e := by
  unfold branch
  cases h1 : operand s.mem m.m1 p1 with
  | error e => simp [bind, Except.bind]
  | ok c =>
    cases h2 : operand s.mem m.m2 p2 with
    | error e => simp [bind, Except.bind]
    | ok a => simp [bind, Except.bind, pure, Except.pure]

/-- An instruction always answers a next state: the committed one or the faulted one. -/
theorem conclude_next (op : Opcode) (m : Modes) (s : State) (x : Except Raise State) :
    ∃ t, conclude op m s x = .next t := by
  cases x <;> exact ⟨_, rfl⟩

theorem conclude_next_iff (op : Opcode) (m : Modes) (s t : State) (x : Except Raise State) :
    conclude op m s x = .next t ↔
      x = .ok t ∨ ∃ r, x = .error r ∧ t = s.takeFault (some (encodeWord op m)) r := by
  cases x <;> simp [conclude, eq_comm]

end Sys2Proof.Machine
end

