-- ==== Sys2Proof/Laws/Exec.lean ====
section
/-! SUPPORT. What each meaning can do when it answers a next state: the completed instruction or the fault it
raised. -/

namespace Sys2Proof.Machine

/-- The faulted outcome of an instruction: its own word is recorded (R96). -/
def Faults (i : Instr) (s t : State) : Prop := ∃ r, t = s.takeFault (some i.word) r

theorem conclude_binary_next {op : Opcode} {f : Int → Int → Except Raise Int} {m : Modes} {p1 p2 p3 : Int}
    {s t : State} (h : conclude op m s (binary op f m p1 p2 p3 s) = .next t) :
    (∃ r, t = s.takeFault (some (encodeWord op m)) r) ∨
      ∃ a b r, operand s.mem m.m1 p1 = .ok a ∧ operand s.mem m.m2 p2 = .ok b ∧ f a b = .ok r ∧ s.mem.Valid p3 ∧
        t = { s with mem := s.mem.set p3.toNat r, head := s.nextHead op } := by
  rcases (conclude_next_iff _ _ _ _ _).1 h with h | ⟨r, -, rfl⟩
  · exact .inr ((binary_ok_iff _ _ _ _ _ _ _ _).1 h)
  · exact .inl ⟨r, rfl⟩

theorem execAdd_next {m : Modes} {p1 p2 p3 : Int} {s t : State} (h : execAdd m p1 p2 p3 s = .next t) :
    Faults (.add m p1 p2 p3) s t ∨
      ∃ a b, operand s.mem m.m1 p1 = .ok a ∧ operand s.mem m.m2 p2 = .ok b ∧ s.cfg.IsWord (a + b) ∧ s.mem.Valid p3 ∧
        t = { s with mem := s.mem.set p3.toNat (a + b), head := s.nextHead .add } := by
  rcases conclude_binary_next h with hf | ⟨a, b, r, ha, hb, hr, hv, rfl⟩
  · exact .inl hf
  · obtain ⟨hw, rfl⟩ := (checkRange_ok_iff _ _ _).1 hr
    exact .inr ⟨a, b, ha, hb, hw, hv, rfl⟩

theorem execMul_next {m : Modes} {p1 p2 p3 : Int} {s t : State} (h : execMul m p1 p2 p3 s = .next t) :
    Faults (.mul m p1 p2 p3) s t ∨
      ∃ a b, operand s.mem m.m1 p1 = .ok a ∧ operand s.mem m.m2 p2 = .ok b ∧ s.cfg.IsWord (a * b) ∧ s.mem.Valid p3 ∧
        t = { s with mem := s.mem.set p3.toNat (a * b), head := s.nextHead .mul } := by
  rcases conclude_binary_next h with hf | ⟨a, b, r, ha, hb, hr, hv, rfl⟩
  · exact .inl hf
  · obtain ⟨hw, rfl⟩ := (checkRange_ok_iff _ _ _).1 hr
    exact .inr ⟨a, b, ha, hb, hw, hv, rfl⟩

theorem execLt_next {m : Modes} {p1 p2 p3 : Int} {s t : State} (h : execLt m p1 p2 p3 s = .next t) :
    Faults (.lt m p1 p2 p3) s t ∨
      ∃ a b, operand s.mem m.m1 p1 = .ok a ∧ operand s.mem m.m2 p2 = .ok b ∧ s.mem.Valid p3 ∧
        t = { s with mem := s.mem.set p3.toNat (truthWord (decide (a < b))), head := s.nextHead .lt } := by
  rcases conclude_binary_next h with hf | ⟨a, b, r, ha, hb, hr, hv, rfl⟩
  · exact .inl hf
  · cases hr
    exact .inr ⟨a, b, ha, hb, hv, rfl⟩

theorem execEq_next {m : Modes} {p1 p2 p3 : Int} {s t : State} (h : execEq m p1 p2 p3 s = .next t) :
    Faults (.eq m p1 p2 p3) s t ∨
      ∃ a b, operand s.mem m.m1 p1 = .ok a ∧ operand s.mem m.m2 p2 = .ok b ∧ s.mem.Valid p3 ∧
        t = { s with mem := s.mem.set p3.toNat (truthWord (decide (a = b))), head := s.nextHead .eq } := by
  rcases conclude_binary_next h with hf | ⟨a, b, r, ha, hb, hr, hv, rfl⟩
  · exact .inl hf
  · cases hr
    exact .inr ⟨a, b, ha, hb, hv, rfl⟩

theorem execInp_next {m : Modes} {p1 : Int} {s t : State} (h : execInp m p1 s = .next t) :
    Faults (.inp m p1) s t ∨
      ∃ rest v, s.inp = rest ++ [v] ∧ s.mem.Valid p1 ∧
        t = { s with mem := s.mem.set p1.toNat v, inp := rest, head := s.nextHead .inp } := by
  rcases (conclude_next_iff _ _ _ _ _).1 h with h | ⟨r, -, rfl⟩
  · right
    cases hp : popInput s.inp with
    | error e => simp [hp, bind, Except.bind] at h
    | ok vr =>
      obtain ⟨v, rest⟩ := vr
      cases hw : memWrite s.mem p1 v with
      | error e => simp [hp, hw, bind, Except.bind] at h
      | ok m' =>
        obtain ⟨hv, rfl⟩ := (memWrite_ok_iff _ _ _ _).1 hw
        simp only [hp, hw, bind, Except.bind, pure, Except.pure, Except.ok.injEq] at h
        exact ⟨rest, v, (popInput_ok_iff _ _ _).1 hp, hv, h.symm⟩
  · exact .inl ⟨r, rfl⟩

theorem execOut_next {m : Modes} {p1 : Int} {s t : State} (h : execOut m p1 s = .next t) :
    Faults (.out m p1) s t ∨
      ∃ v, operand s.mem m.m1 p1 = .ok v ∧ t = { s with out := s.out ++ [v], head := s.nextHead .out } := by
  rcases (conclude_next_iff _ _ _ _ _).1 h with h | ⟨r, -, rfl⟩
  · right
    cases hp : operand s.mem m.m1 p1 with
    | error e => simp [hp, bind, Except.bind] at h
    | ok v =>
      simp only [hp, bind, Except.bind, pure, Except.pure, Except.ok.injEq] at h
      exact ⟨v, rfl, h.symm⟩
  · exact .inl ⟨r, rfl⟩

theorem execJt_next {m : Modes} {p1 p2 : Int} {s t : State} (h : execJt m p1 p2 s = .next t) :
    Faults (.jt m p1 p2) s t ∨
      ∃ c a, operand s.mem m.m1 p1 = .ok c ∧ operand s.mem m.m2 p2 = .ok a ∧
        t = { s with head := if c ≠ 0 then a else s.nextHead .jt } := by
  rcases (conclude_next_iff _ _ _ _ _).1 h with h | ⟨r, -, rfl⟩
  · obtain ⟨c, a, hc, ha, rfl⟩ := (branch_ok_iff _ _ _ _ _ _ _).1 h
    exact .inr ⟨c, a, hc, ha, by simp⟩
  · exact .inl ⟨r, rfl⟩

theorem execJf_next {m : Modes} {p1 p2 : Int} {s t : State} (h : execJf m p1 p2 s = .next t) :
    Faults (.jf m p1 p2) s t ∨
      ∃ c a, operand s.mem m.m1 p1 = .ok c ∧ operand s.mem m.m2 p2 = .ok a ∧
        t = { s with head := if c = 0 then a else s.nextHead .jf } := by
  rcases (conclude_next_iff _ _ _ _ _).1 h with h | ⟨r, -, rfl⟩
  · obtain ⟨c, a, hc, ha, rfl⟩ := (branch_ok_iff _ _ _ _ _ _ _).1 h
    exact .inr ⟨c, a, hc, ha, by simp⟩
  · exact .inl ⟨r, rfl⟩

theorem execHlt_next {m : Modes} {s t : State} (h : execHlt m s = .next t) :
    t = { s with status := .halted, head := s.nextHead .hlt } := by
  cases h
  rfl

/-! ## All instructions at once -/

/-- The results 1 and 0 of the comparisons are Words. -/
theorem truthWord_isWord {c : Config} (h : c.Legal) (b : Bool) : c.IsWord (truthWord b) := by
  have hp : (2 : Int) ^ 1 ≤ 2 ^ (c.wordBits - 1) :=
    pow_le_pow_right₀ (by norm_num) (by have : 2 ≤ c.wordBits := h; omega)
  unfold truthWord
  constructor <;> split <;> linarith

/-- What a completed instruction leaves (R71): at most one cell written, with a Word; at most one input taken; at
most one output appended; status changed by HLT alone. -/
structure Completed (i : Instr) (s t : State) : Prop where
  mem : t.mem = s.mem ∨
    ∃ p v, s.mem.Valid p ∧ t.mem = s.mem.set p.toNat v ∧
      (s.cfg.Legal → s.mem.wf s.cfg → (∀ u ∈ s.inp, s.cfg.IsWord u) → s.cfg.IsWord v)
  inp : t.inp = s.inp ∨ s.inp ≠ [] ∧ t.inp = s.inp.dropLast
  out : t.out = s.out ∨
    ∃ v, t.out = s.out ++ [v] ∧ ((∀ p ∈ i.params, s.cfg.IsWord p) → s.mem.wf s.cfg → s.cfg.IsWord v)
  cfg : t.cfg = s.cfg
  fault : t.fault = s.fault
  status : (∃ m, i = .hlt m) ∧ t.status = .halted ∨ (¬ ∃ m, i = .hlt m) ∧ t.status = s.status

theorem Completed.of_store {i : Instr} {s : State} {p v head : Int} (hi : ¬ ∃ m, i = .hlt m) (hp : s.mem.Valid p)
    (hv : s.cfg.Legal → s.cfg.IsWord v) : Completed i s { s with mem := s.mem.set p.toNat v, head := head } :=
  ⟨.inr ⟨p, v, hp, rfl, fun h _ _ => hv h⟩, .inl rfl, .inl rfl, rfl, rfl, .inr ⟨hi, rfl⟩⟩

theorem Completed.of_jump {i : Instr} {s : State} {head : Int} (hi : ¬ ∃ m, i = .hlt m) :
    Completed i s { s with head := head } :=
  ⟨.inl rfl, .inl rfl, .inl rfl, rfl, rfl, .inr ⟨hi, rfl⟩⟩

/-- The one case analysis over the instructions: a next state is the faulted one or a completed one. -/
theorem exec_next_cases {i : Instr} {s t : State} (h : exec i s = .next t) : Faults i s t ∨ Completed i s t := by
  cases i with
  | add m p1 p2 p3 =>
    rcases execAdd_next h with hf | ⟨a, b, -, -, hw, hv, rfl⟩
    · exact .inl hf
    · exact .inr (.of_store nofun hv fun _ => hw)
  | mul m p1 p2 p3 =>
    rcases execMul_next h with hf | ⟨a, b, -, -, hw, hv, rfl⟩
    · exact .inl hf
    · exact .inr (.of_store nofun hv fun _ => hw)
  | lt m p1 p2 p3 =>
    rcases execLt_next h with hf | ⟨a, b, -, -, hv, rfl⟩
    · exact .inl hf
    · exact .inr (.of_store nofun hv fun hl => truthWord_isWord hl _)
  | eq m p1 p2 p3 =>
    rcases execEq_next h with hf | ⟨a, b, -, -, hv, rfl⟩
    · exact .inl hf
    · exact .inr (.of_store nofun hv fun hl => truthWord_isWord hl _)
  | inp m p1 =>
    rcases execInp_next h with hf | ⟨rest, v, hq, hv, rfl⟩
    · exact .inl hf
    · exact .inr ⟨.inr ⟨p1, v, hv, rfl, fun _ _ hw => hw v (by simp [hq])⟩, .inr (by simp [hq]), .inl rfl, rfl, rfl,
        .inr ⟨nofun, rfl⟩⟩
  | out m p1 =>
    rcases execOut_next h with hf | ⟨v, hv, rfl⟩
    · exact .inl hf
    · refine .inr ⟨.inl rfl, .inl rfl, .inr ⟨v, rfl, fun hp hm => ?_⟩, rfl, rfl, .inr ⟨nofun, rfl⟩⟩
      rcases (operand_ok_iff _ _ _ _).1 hv with ⟨-, rfl⟩ | ⟨-, hc⟩
      · exact hp _ (by simp [Instr.params])
      · exact hm _ (Memory.mem_of_cell hc)
  | jt m p1 p2 =>
    rcases execJt_next h with hf | ⟨c, a, -, -, rfl⟩
    · exact .inl hf
    · exact .inr (.of_jump nofun)
  | jf m p1 p2 =>
    rcases execJf_next h with hf | ⟨c, a, -, -, rfl⟩
    · exact .inl hf
    · exact .inr (.of_jump nofun)
  | hlt m =>
    rw [execHlt_next h]
    exact .inr ⟨.inl rfl, .inl rfl, .inl rfl, rfl, rfl, .inl ⟨⟨m, rfl⟩, rfl⟩⟩

/-- Every instruction answers a next state: nothing stops in a meaning. -/
theorem exec_next (i : Instr) (s : State) : ∃ t, exec i s = .next t := by
  cases i <;> first | exact ⟨_, rfl⟩ | exact conclude_next _ _ _ _

end Sys2Proof.Machine
end

