-- ==== Sys2Proof/WellFormed.lean ====
section
/-! DEFINITION. Which instructions a machine of a given width can hold on its tape (spec/00_scope.md R6,
spec/30_encoding.md R60). The digits of the instruction word are right by type: a `Mode` is 0 or 1 (R53). -/

namespace Sys2Proof

/-- Every parameter word is a Word of the machine (R60: "Parameter words are whole Words, taken as they are"). -/
def Instr.wf (c : Config) (i : Instr) : Bool :=
  i.params.all fun p => decide (c.IsWord p)

end Sys2Proof
end

