-- ==== Sys2Proof/Laws/PerInstr.lean ====
section
/-! SUPPORT. Laws of instructions as syntax, one lemma a constructor. -/

namespace Sys2Proof.Laws

/-- A parameter of a well-formed instruction is a Word. -/
theorem params_isWord {c : Config} {i : Instr} (h : i.wf c = true) : ∀ p ∈ i.params, c.IsWord p :=
  fun p hp => of_decide_eq_true (List.all_eq_true.1 h p hp)

/-- Every instruction word fits the 15 bits R6 asks for. -/
theorem word_isWord {c : Config} (h : 15 ≤ c.wordBits) (i : Instr) : c.IsWord i.word := by
  obtain ⟨h1, h2⟩ := encodeWord_bounds i.opcode i.modes
  have hp : (2 : Int) ^ 14 ≤ 2 ^ (c.wordBits - 1) := pow_le_pow_right₀ (by norm_num) (by omega)
  unfold Instr.word
  constructor <;> linarith

/-! ## The length of an encoding (R8, R48) -/

def EncodeLength.Statement (i : Instr) : Prop := (encode i).length = i.opcode.length

theorem EncodeLength.add (m : Modes) (p1 p2 p3 : Int) : EncodeLength.Statement (.add m p1 p2 p3) := rfl
theorem EncodeLength.mul (m : Modes) (p1 p2 p3 : Int) : EncodeLength.Statement (.mul m p1 p2 p3) := rfl
theorem EncodeLength.inp (m : Modes) (p1 : Int) : EncodeLength.Statement (.inp m p1) := rfl
theorem EncodeLength.out (m : Modes) (p1 : Int) : EncodeLength.Statement (.out m p1) := rfl
theorem EncodeLength.jt (m : Modes) (p1 p2 : Int) : EncodeLength.Statement (.jt m p1 p2) := rfl
theorem EncodeLength.jf (m : Modes) (p1 p2 : Int) : EncodeLength.Statement (.jf m p1 p2) := rfl
theorem EncodeLength.lt (m : Modes) (p1 p2 p3 : Int) : EncodeLength.Statement (.lt m p1 p2 p3) := rfl
theorem EncodeLength.eq (m : Modes) (p1 p2 p3 : Int) : EncodeLength.Statement (.eq m p1 p2 p3) := rfl
theorem EncodeLength.hlt (m : Modes) : EncodeLength.Statement (.hlt m) := rfl

/-! ## A well-formed instruction can stand on the tape (R6, R15) -/

def EncodedWords.Statement (i : Instr) : Prop :=
  ∀ c : Config, 15 ≤ c.wordBits → i.wf c = true → ∀ w ∈ encode i, c.IsWord w

theorem encodedWords_of_wf (i : Instr) : EncodedWords.Statement i := by
  intro c hc hi w hw
  rcases List.mem_cons.1 hw with rfl | hw
  · exact word_isWord hc i
  · exact params_isWord hi w hw

theorem EncodedWords.add (m : Modes) (p1 p2 p3 : Int) : EncodedWords.Statement (.add m p1 p2 p3) := encodedWords_of_wf _
theorem EncodedWords.mul (m : Modes) (p1 p2 p3 : Int) : EncodedWords.Statement (.mul m p1 p2 p3) := encodedWords_of_wf _
theorem EncodedWords.inp (m : Modes) (p1 : Int) : EncodedWords.Statement (.inp m p1) := encodedWords_of_wf _
theorem EncodedWords.out (m : Modes) (p1 : Int) : EncodedWords.Statement (.out m p1) := encodedWords_of_wf _
theorem EncodedWords.jt (m : Modes) (p1 p2 : Int) : EncodedWords.Statement (.jt m p1 p2) := encodedWords_of_wf _
theorem EncodedWords.jf (m : Modes) (p1 p2 : Int) : EncodedWords.Statement (.jf m p1 p2) := encodedWords_of_wf _
theorem EncodedWords.lt (m : Modes) (p1 p2 p3 : Int) : EncodedWords.Statement (.lt m p1 p2 p3) := encodedWords_of_wf _
theorem EncodedWords.eq (m : Modes) (p1 p2 p3 : Int) : EncodedWords.Statement (.eq m p1 p2 p3) := encodedWords_of_wf _
theorem EncodedWords.hlt (m : Modes) : EncodedWords.Statement (.hlt m) := encodedWords_of_wf _

end Sys2Proof.Laws
end

