-- ==== Sys2Proof/Laws/Step.lean ====
section
/-! SUPPORT. What the fetch half and one step can do. -/

namespace Sys2Proof.Machine

/-- The parameter fetch is a slice of the tape, or the fault at the first address past it (R68). -/
theorem fetchParams_eq (m : Memory) (n : Nat) (a : Int) (h0 : 0 ≤ a) (h1 : a ≤ m.length) :
    fetchParams m a n =
      if m.length < a + n then .error (.outOfBounds m.length) else .ok ((m.drop a.toNat).take n) := by
  induction n generalizing a with
  | zero => simp [fetchParams]; omega
  | succ n ih =>
    unfold fetchParams
    rcases Int.lt_or_eq_of_le h1 with h | h
    · obtain ⟨v, hv⟩ := Memory.cell_of_valid (m := m) (a := a) ⟨h0, h⟩
      have hget := ((m.cell_eq_some_iff a v).1 hv).2
      have hlen : a.toNat < m.length := by omega
      have hdrop : m.drop a.toNat = v :: m.drop (a.toNat + 1) := by
        rw [List.drop_eq_getElem_cons hlen]
        rw [List.getElem?_eq_getElem hlen] at hget
        rw [Option.some.inj hget]
      have hnext : (a + 1).toNat = a.toNat + 1 := by omega
      rw [(memRead_ok_iff _ _ _).2 hv, ih (a + 1) (by omega) (by omega), hdrop, hnext]
      by_cases hs : (m.length : Int) < a + (n + 1 : Nat)
      · rw [if_pos hs, if_pos (by omega)]
        rfl
      · rw [if_neg hs, if_neg (by omega)]
        rfl
    · have hr : memRead m a = .error (.outOfBounds a) :=
        (memRead_error_iff _ _ _).2 ⟨by unfold Memory.Valid; omega, rfl⟩
      rw [hr, if_pos (by omega), h]
      rfl

/-- The fetch half reads the instruction the tape's words decode to from the head on. -/
theorem fetch_ok_iff (s : State) (i : Instr) :
    fetch s = .ok i ↔ 0 ≤ s.head ∧ ∃ rest, decode (s.mem.drop s.head.toNat) = .ok (i, rest) := by
  unfold fetch
  cases hr : memRead s.mem s.head with
  | error r =>
    have hn := ((memRead_error_iff _ _ _).1 hr).1
    constructor
    · intro h; cases h
    · rintro ⟨h0, rest, h⟩
      have : s.mem.drop s.head.toNat = [] := by
        rw [List.drop_eq_nil_iff]
        unfold Memory.Valid at hn
        omega
      rw [this] at h
      cases h
  | ok w =>
    have hc := (memRead_ok_iff _ _ _).1 hr
    obtain ⟨h0, h1⟩ := Memory.valid_of_cell hc
    have hget := ((Memory.cell_eq_some_iff _ _ _).1 hc).2
    have hlen : s.head.toNat < s.mem.length := by omega
    have hdrop : s.mem.drop s.head.toNat = w :: s.mem.drop (s.head + 1).toNat := by
      rw [List.drop_eq_getElem_cons hlen]
      rw [List.getElem?_eq_getElem hlen] at hget
      rw [Option.some.inj hget]
      congr 2
      omega
    rw [hdrop]
    unfold decode
    cases hd : decodeWord w with
    | error e => simp [hd]
    | ok om =>
      obtain ⟨op, m⟩ := om
      simp only [hd, List.length_drop, fetchParams_eq s.mem op.paramCount (s.head + 1) (by omega) (by omega)]
      by_cases hs : s.mem.length - (s.head + 1).toNat < op.paramCount
      · rw [if_pos hs, if_pos (by omega)]
        simp
      · rw [if_neg hs, if_neg (by omega)]
        simp [h0]

/-- The fetched instruction's words stand on the tape from the head on. -/
theorem fetch_words {s : State} {i : Instr} (h : fetch s = .ok i) :
    s.mem.cell s.head = some i.word ∧ ∀ p ∈ i.params, p ∈ s.mem := by
  obtain ⟨h0, rest, hd⟩ := (fetch_ok_iff s i).1 h
  cases hw : s.mem.drop s.head.toNat with
  | nil =>
    rw [hw] at hd
    cases hd
  | cons w ws =>
    rw [hw] at hd
    obtain ⟨rfl, hp⟩ := words_of_decode hd
    constructor
    · refine (Memory.cell_eq_some_iff _ _ _).2 ⟨h0, ?_⟩
      have : (s.mem.drop s.head.toNat)[0]? = some i.word := by rw [hw]; rfl
      simpa using this
    · intro p hi
      refine List.mem_of_mem_drop (i := s.head.toNat) ?_
      rw [hw]
      exact List.mem_cons_of_mem _ (hp p hi)

/-- What is fetched from a tape of Words is well-formed. -/
theorem fetch_wf {s : State} {i : Instr} (h : fetch s = .ok i) (hm : s.mem.wf s.cfg) : i.wf s.cfg = true :=
  List.all_eq_true.2 fun p hp => decide_eq_true (hm p ((fetch_words h).2 p hp))

theorem step_running {s : State} {i : Instr} (hs : s.status = .running) (hf : fetch s = .ok i) :
    step s = exec i s := by
  unfold step
  rw [hs]
  simp only [hf]

theorem step_fetch_fault {s : State} {f : FetchFault} (hs : s.status = .running) (hf : fetch s = .error f) :
    step s = .next (s.takeFault f.word f.raised) := by
  unfold step
  rw [hs]
  simp only [hf]

/-- What a step that answers a next state does: it runs the fetched instruction, or takes the fetch's fault. -/
theorem step_next {s t : State} (h : step s = .next t) :
    s.status = .running ∧
      ((∃ i, fetch s = .ok i ∧ exec i s = .next t) ∨
        ∃ f, fetch s = .error f ∧ t = s.takeFault f.word f.raised) := by
  unfold step at h
  split at h
  · rename_i hs
    refine ⟨hs, ?_⟩
    split at h
    · exact .inl ⟨_, ‹_›, h⟩
    · cases h
      exact .inr ⟨_, ‹_›, rfl⟩
  · cases h
  · cases h

/-- What the fetch half's fault holds (R96): the word is the cell at the head, and the address is invalid. -/
theorem fetch_error {s : State} {f : FetchFault} (h : fetch s = .error f) :
    f.word = s.mem.cell s.head ∧
      ((f.raised.addr = none ∧ f.word ≠ none ∧
          (f.raised.cause = .unknownOpcode ∨ f.raised.cause = .unknownAddressingMode)) ∨
        ∃ a, f.raised = .outOfBounds a ∧ ¬ s.mem.Valid a ∧ (f.word = none → a = s.head)) := by
  unfold fetch at h
  cases hr : memRead s.mem s.head with
  | error r =>
    obtain ⟨hn, rfl⟩ := (memRead_error_iff _ _ _).1 hr
    simp only [hr, Except.error.injEq] at h
    subst h
    exact ⟨((Memory.cell_eq_none_iff _ _).2 hn).symm, .inr ⟨_, rfl, hn, fun _ => rfl⟩⟩
  | ok w =>
    have hc := (memRead_ok_iff _ _ _).1 hr
    obtain ⟨h0, h1⟩ := Memory.valid_of_cell hc
    simp only [hr] at h
    cases hd : decodeWord w with
    | error e =>
      simp only [hd, Except.error.injEq] at h
      subst h
      exact ⟨hc.symm, .inl ⟨rfl, by simp, by cases e <;> simp [Cause.ofDecodeError]⟩⟩
    | ok om =>
      obtain ⟨op, m⟩ := om
      simp only [hd, fetchParams_eq s.mem op.paramCount (s.head + 1) (by omega) (by omega)] at h
      split at h
      · rename_i r hp
        split at hp
        · cases hp
          cases h
          exact ⟨hc.symm, .inr ⟨_, rfl, by unfold Memory.Valid; omega, by simp⟩⟩
        · cases hp
      · cases h

end Sys2Proof.Machine
end

