-- ==== Sys2Proof/Laws/Run.lean ====
section
/-! SUPPORT. Runs: the induction over steps, once, and the ends of runs. -/

namespace Sys2Proof.Machine

/-- A Running machine always takes its step. -/
theorem step_of_running {s : State} (h : s.status = .running) : ∃ t, step s = .next t := by
  cases hf : fetch s with
  | ok i =>
    rw [step_running h hf]
    exact exec_next i s
  | error f => exact ⟨_, step_fetch_fault h hf⟩

theorem runSteps_of_next {s t : State} (h : step s = .next t) (n : Nat) : runSteps (n + 1) s = runSteps n t := by
  simp only [runSteps, h]

/-- Where no step is enabled, running changes nothing. -/
theorem runSteps_stopped {s : State} (h : s.status ≠ .running) (n : Nat) : runSteps n s = s := by
  cases n with
  | zero => rfl
  | succ n =>
    unfold runSteps
    split
    · exact absurd (step_next ‹_›).1 h
    · rfl
    · rfl

theorem runSteps_add (n k : Nat) (s : State) : runSteps (n + k) s = runSteps k (runSteps n s) := by
  induction n generalizing s with
  | zero => rw [Nat.zero_add]; rfl
  | succ n ih =>
    by_cases h : s.status = .running
    · obtain ⟨t, ht⟩ := step_of_running h
      rw [show n + 1 + k = n + k + 1 by omega, runSteps_of_next ht, runSteps_of_next ht, ih]
    · simp only [runSteps_stopped h]

/-- What holds at the start and is kept by every step holds all along a run. -/
theorem runSteps_induction {P : State → Prop} (hstep : ∀ s t, P s → step s = .next t → P t) (n : Nat) {s : State}
    (h : P s) : P (runSteps n s) := by
  induction n generalizing s with
  | zero => exact h
  | succ n ih =>
    unfold runSteps
    split
    · exact ih (hstep _ _ h ‹_›)
    · exact h
    · exact h

end Sys2Proof.Machine
end

