-- ==== Sys2Proof/Tests/Slice0.lean ====
section
/-! SUPPORT. The model's own tests, their results taken from spec/95_test_vectors.md or computed by hand from the
rule named, and a witness for the hypotheses of every statement of Certificates/Slice0/Obligations.lean that has any. -/

namespace Sys2Proof.Tests

open Sys2Proof.Machine

/-- A machine of 64 bits right after LOAD. -/
def loaded (mem inp : List Int) : State := State.load Config.standard mem inp

/-- The next state of an answer, if it is one. -/
def nextOf : Result → Option State
  | .next s => some s
  | .fault _ => none
  | .refused _ => none

/-- The state after one step. -/
def after (s : State) : Option State := nextOf (step s)

/-- The fault record after one step. -/
def faultAfter (s : State) : Option FaultRecord := (after s).bind fun t => t.fault

def maxWord : Int := 9223372036854775807
def minWord : Int := -9223372036854775808

def ppp : Modes := ⟨.position, .position, .position⟩
def iip : Modes := ⟨.immediate, .immediate, .position⟩

/-! ## WellFormed: each check accepts its boundary and refuses the value past it -/

theorem test_wf_accepts_bounds : Instr.wf Config.standard (.add ppp maxWord minWord 0) = true := by decide
theorem test_wf_refuses_wide_p1 : Instr.wf Config.standard (.add ppp (maxWord + 1) 0 0) = false := by decide
theorem test_wf_refuses_wide_p2 : Instr.wf Config.standard (.jt ppp 0 (minWord - 1)) = false := by decide
theorem test_wf_refuses_wide_p3 : Instr.wf Config.standard (.eq ppp 0 0 (maxWord + 1)) = false := by decide
theorem test_wf_refuses_wide_input : Instr.wf Config.standard (.inp ppp (minWord - 1)) = false := by decide

/-! ## Decoding: a word of every constructor written out from R49 and R55 -/

theorem test_decode_add : decode [1, 9, 10, 3, 2] = .ok (.add ppp 9 10 3, [2]) := by decide
theorem test_decode_add_all_modes :
    decode [11101, 2, 3, 5] = .ok (.add ⟨.immediate, .immediate, .immediate⟩ 2 3 5, []) := by decide
theorem test_decode_mul :
    decode [1002, 4, 3, 4, 33] = .ok (.mul ⟨.position, .immediate, .position⟩ 4 3 4, [33]) := by decide
theorem test_decode_in : decode [103, 3] = .ok (.inp ⟨.immediate, .position, .position⟩ 3, []) := by decide
theorem test_decode_out : decode [1004, 7] = .ok (.out ⟨.position, .immediate, .position⟩ 7, []) := by decide
theorem test_decode_jt : decode [105, 1, 8] = .ok (.jt ⟨.immediate, .position, .position⟩ 1 8, []) := by decide
theorem test_decode_jf : decode [1106, 1, 0] = .ok (.jf iip 1 0, []) := by decide
theorem test_decode_lt : decode [1107, -1, 0, 5] = .ok (.lt iip (-1) 0 5, []) := by decide
theorem test_decode_eq : decode [1108, -1, 8, 3] = .ok (.eq iip (-1) 8 3, []) := by decide
theorem test_decode_hlt : decode [11199] = .ok (.hlt ⟨.immediate, .immediate, .immediate⟩, []) := by decide

/-- §2.1: the rejected words. -/
theorem test_decode_unknown_opcode :
    ∀ w ∈ [0, 9, 10, 98, 100, 210, -1, -99, -101, 100010], decodeWord w = .error .unknownOpcode := by decide
theorem test_decode_unknown_mode :
    ∀ w ∈ [201, 299, 20004, 21101, 99999, 100001, 100099], decodeWord w = .error .unknownAddressingMode := by decide
theorem test_decode_missing_parameter : decode [1, 0, 0] = .error (.missingParameter 3) := by decide
theorem test_decode_nothing : decode [] = .error .noWord := by decide

theorem test_encode_mul : encode (.mul ⟨.position, .immediate, .position⟩ 4 3 4) = [1002, 4, 3, 4] := by decide
theorem test_table_word_add : decodeTableWord 32 1 = some (.add ppp 0 0 0) := by decide
theorem test_table_word_hlt : decodeTableWord 8 99 = some (.hlt ppp) := by decide
theorem test_table_word_negative_parameter :
    decodeTableWord 128 (104 + 2 ^ 64 * (2 ^ 64 - 7)) = some (.out ⟨.immediate, .position, .position⟩ (-7)) := by decide
theorem test_placed_word_runs :
    (after (State.reset.withFetchWord 8 99)).map (fun t => t.status) = some .halted := by decide
theorem test_placed_add_runs :
    (after (State.reset.withFetchWord 32 1)).map (fun t => t.mem) = some [2, 0, 0, 0] := by decide

/-! ## One step of each instruction -/

/-- A1. -/
theorem test_add : after (loaded [1, 5, 6, 7, 99, 20, 22, 0] []) =
    some { loaded [1, 5, 6, 7, 99, 20, 22, 42] [] with head := 4 } := by decide
/-- A6: `MIN + (-1)`. -/
theorem test_add_overflow : faultAfter (loaded [1101, minWord, -1, 5, 99, 0] []) =
    some { cause := .overflow, head := 0, word := some 1101, addr := none } := by decide
/-- M6: `2^31 · 2^31`. -/
theorem test_mul : (after (loaded [1102, 2147483648, 2147483648, 5, 99, 0] [])).bind (fun t => t.mem.cell 5) =
    some 4611686018427387904 := by decide
/-- M5: `2^32 · 2^31`. -/
theorem test_mul_overflow : faultAfter (loaded [1102, 4294967296, 2147483648, 5, 99, 0] []) =
    some { cause := .overflow, head := 0, word := some 1102, addr := none } := by decide
/-- I1: the LAST input is taken. -/
theorem test_in_is_lifo : after (loaded [3, 7, 3, 8, 99, 0, 0, 0, 0] [10, 20]) =
    some { loaded [3, 7, 3, 8, 99, 0, 0, 20, 0] [10] with head := 2 } := by decide
/-- I6: the empty queue is reported before the bad destination. -/
theorem test_in_exhausted_first : faultAfter (loaded [3, 9, 99] []) =
    some { cause := .inputExhausted, head := 0, word := some 3, addr := none } := by decide
/-- O1. -/
theorem test_out : after (loaded [4, 3, 99, -7] []) = some { loaded [4, 3, 99, -7] [] with head := 2, out := [-7] } := by
  decide
/-- O3: nothing is output, the head stays. -/
theorem test_out_negative_address : after (loaded [4, -1, 99] []) =
    some { loaded [4, -1, 99] [] with
      status := .faulted
      fault := some { cause := .outOfBounds, head := 0, word := some 4, addr := some (-1) } } := by decide
/-- J3: a negative condition is true. -/
theorem test_jt_negative : (after (loaded [1105, -1, 4, 99, 104, 7, 99] [])).map (fun t => t.head) = some 4 := by decide
/-- J7: the target is resolved although the branch is not taken. -/
theorem test_jt_resolves_target : faultAfter (loaded [5, 4, 99, 99, 0] []) =
    some { cause := .outOfBounds, head := 0, word := some 5, addr := some 99 } := by decide
/-- F1. -/
theorem test_jf_taken : (after (loaded [1106, 0, 4, 99, 104, 7, 99] [])).map (fun t => t.head) = some 4 := by decide
/-- F3: only 0 is false. -/
theorem test_jf_max : (after (loaded [1106, maxWord, 4, 99, 104, 7, 99] [])).map (fun t => t.head) = some 3 := by decide
/-- L3: signed. -/
theorem test_lt_signed : (after (loaded [1107, -1, 0, 5, 99, 9] [])).bind (fun t => t.mem.cell 5) = some 1 := by decide
/-- L2: equal is not less. -/
theorem test_lt_equal : (after (loaded [1107, 4, 4, 5, 99, 9] [])).bind (fun t => t.mem.cell 5) = some 0 := by decide
/-- E3: a cell compared with itself, then overwritten. -/
theorem test_eq_same_cell : (after (loaded [8, 5, 5, 5, 99, 123] [])).bind (fun t => t.mem.cell 5) = some 1 := by decide
/-- E2. -/
theorem test_eq_different : (after (loaded [1108, 0, 1, 5, 99, 9] [])).bind (fun t => t.mem.cell 5) = some 0 := by decide
/-- H2. -/
theorem test_hlt : (after (loaded [11199] [1, 2])).map (fun t => (t.status, t.inp)) = some (.halted, [1, 2]) := by decide
/-- H3. -/
theorem test_hlt_bad_digit : faultAfter (loaded [299] []) =
    some { cause := .unknownAddressingMode, head := 0, word := some 299, addr := none } := by decide

/-- D5: the empty program, which is also the machine after reset. -/
theorem test_reset_step : faultAfter State.reset =
    some { cause := .outOfBounds, head := 0, word := none, addr := some 0 } := by decide
/-- A11: a missing parameter. -/
theorem test_missing_parameter : faultAfter (loaded [1, 0, 0] []) =
    some { cause := .outOfBounds, head := 0, word := some 1, addr := some 3 } := by decide
/-- R90's codes. -/
theorem test_cause_codes :
    [Cause.unknownOpcode, .unknownAddressingMode, .outOfBounds, .inputExhausted, .overflow].map Cause.code =
      [1, 2, 3, 4, 5] := by decide
/-- A halted machine takes no step (R77). -/
theorem test_no_step_after_halt : after { loaded [99] [] with status := .halted } = none := by decide

/-! ## The host's transactions and the assembler -/

theorem test_load_refuses_wide_value : nextOf (boot Config.standard [maxWord + 1] []) = none := by decide
theorem test_load_accepts_bounds : nextOf (boot Config.standard [maxWord] [minWord]) = some (loaded [maxWord] [minWord]) := by
  decide
theorem test_feed_output :
    (feedOutput { loaded [99] [] with status := .halted, out := [5] } Config.standard [99] [7]).bind nextOf =
      some (loaded [99] [5, 7]) := by decide

/-- P1's encoding, from its assembly. -/
theorem test_assemble_countdown :
    Asm.assemble [.inp (.label "cnt"), .label "loop", .out (.pos (.label "cnt")),
      .add (.pos (.label "cnt")) (.imm (.num (-1))) (.label "cnt"), .jt (.pos (.label "cnt")) (.imm (.label "loop")), .hlt,
      .label "cnt", .data [.num 0]] =
    some [3, 12, 4, 12, 1001, 12, -1, 12, 1005, 12, 2, 99, 0] := by decide
/-- P4's encoding, from its assembly. -/
theorem test_assemble_self_modifying :
    Asm.assemble [.add (.imm (.num 0)) (.imm (.num 99)) (.num 9), .jmp (.num 8), .data [.num 0], .out (.imm (.num 0)),
      .hlt] = some [1101, 0, 99, 9, 1105, 1, 8, 0, 104, 0, 99] := by decide

/-! ## Witnesses: the hypotheses of each statement are met -/

theorem witness_AcceptedWordsAreTheEncoding : decode [99] = .ok (.hlt ppp, []) := by decide

theorem witness_FetchOutsideTheTapeFaults_at_size :
    (loaded [] []).status = .running ∧ ¬ (loaded [] []).mem.Valid (loaded [] []).head := by decide
theorem witness_FetchOutsideTheTapeFaults_negative :
    { loaded [99] [] with head := -1 }.status = .running ∧ ¬ (loaded [99] []).mem.Valid (-1) := by decide

theorem witness_UnknownOpcodeIsRaisedAtDecode_negative :
    (loaded [-1] []).status = .running ∧ (loaded [-1] []).mem.cell (loaded [-1] []).head = some (-1) ∧ (-1 : Int) < 0 := by decide
theorem witness_UnknownOpcodeIsRaisedAtDecode_opcode :
    (loaded [100] []).status = .running ∧ (loaded [100] []).mem.cell (loaded [100] []).head = some 100 ∧
       (100 : Int) % 100 ∉ legalOpcodes := by decide
theorem witness_UnknownAddressingModeIsRaisedAtDecode_wide :
    (loaded [100099] []).status = .running ∧ (loaded [100099] []).mem.cell (loaded [100099] []).head = some 100099 ∧
      (0 : Int) ≤ 100099 ∧ (100099 : Int) % 100 ∈ legalOpcodes ∧
      (100000 : Int) ≤ 100099 := by decide
theorem witness_UnknownAddressingModeIsRaisedAtDecode_digit :
    (loaded [299] []).status = .running ∧ (loaded [299] []).mem.cell (loaded [299] []).head = some 299 ∧ (0 : Int) ≤ 299 ∧ (299 : Int) % 100 ∈ legalOpcodes ∧
      (299 : Int) / 100 % 10 ∉ [0, 1] := by decide

theorem witness_ParametersAreFetchedFirst_missing :
    (loaded [3] []).status = .running ∧ (loaded [3] []).mem.cell (loaded [3] []).head = some 3 ∧ decodeWord 3 = .ok (.inp, ppp) ∧ 1 ≤ Opcode.inp.paramCount ∧
      ¬ (loaded [3] []).mem.Valid (0 + 1) := by decide
theorem witness_ParametersAreFetchedFirst_present :
    (loaded [3, 0] []).status = .running ∧ (loaded [3, 0] []).mem.cell (loaded [3, 0] []).head = some 3 ∧
      decodeWord 3 = .ok (.inp, ppp) ∧
      (loaded [3, 0] []).mem.cell (0 + 1 + 0) = [(0 : Int)][0]? := by decide
theorem witness_StepRunsTheDecodedInstruction :
    (loaded [99] []).status = .running ∧ 0 ≤ (loaded [99] []).head ∧
      decode ((loaded [99] []).mem.drop (loaded [99] []).head.toNat) = .ok (.hlt ppp, []) := by decide
theorem witness_PlacedInstructionIsTheNextToRun : decodeTableWord 8 99 = some (.hlt ppp) := by decide

theorem witness_OperandFollowsItsMode_valid : Memory.cell [7] 0 = some 7 := by decide
theorem witness_OperandFollowsItsMode_invalid : ¬ Memory.Valid [7] 1 ∧ ¬ Memory.Valid [7] (-1) := by decide

/-- ADD: a bad first source, a bad second one, an overflow, a bad destination, and the effect. -/
theorem witness_AddFollowsItsRule_bad_first : SourceBad [0] .position (-1) ∧ SourceBad [0] .position 1 := by decide
theorem witness_AddFollowsItsRule_bad_second : SourceIs [0] .position 0 0 ∧ SourceBad [0] .position 1 := by decide
theorem witness_AddFollowsItsRule_overflow :
    SourceIs [0] .immediate maxWord maxWord ∧ SourceIs [0] .immediate 1 1 ∧
      ¬ Config.standard.IsWord (maxWord + 1) := by decide
theorem witness_AddFollowsItsRule_bad_destination :
    SourceIs [0] .immediate maxWord maxWord ∧ SourceIs [0] .position 0 0 ∧
      Config.standard.IsWord (maxWord + 0) ∧ ¬ Memory.Valid [0] 1 ∧ ¬ Memory.Valid [0] (-1) := by decide
theorem witness_AddFollowsItsRule_effect :
    SourceIs [0] .immediate maxWord maxWord ∧ SourceIs [0] .position 0 0 ∧ Config.standard.IsWord (maxWord + 0) ∧
      Memory.Valid [0] 0 := by decide

theorem witness_MulFollowsItsRule_overflow :
    SourceIs [0] .immediate minWord minWord ∧ SourceIs [0] .immediate (-1) (-1) ∧
      ¬ Config.standard.IsWord (minWord * -1) := by decide
theorem witness_MulFollowsItsRule_bad_destination :
    SourceIs [0] .immediate minWord minWord ∧ SourceIs [0] .immediate 1 1 ∧
      Config.standard.IsWord (minWord * 1) ∧ ¬ Memory.Valid [0] 1 := by decide
theorem witness_MulFollowsItsRule_effect :
    SourceIs [0] .immediate minWord minWord ∧ SourceIs [0] .immediate 1 1 ∧ Config.standard.IsWord (minWord * 1) ∧
      Memory.Valid [0] 0 := by decide
theorem witness_MulFollowsItsRule_bad_sources :
    SourceBad [0] .position 1 ∧ SourceIs [0] .immediate 1 1 ∧ SourceBad [0] .position (-1) := by decide

theorem witness_InFollowsItsRule_empty : (loaded [3, 0] []).inp = [] := by decide
theorem witness_InFollowsItsRule_bad_destination :
    (loaded [3, 2] [7]).inp = [] ++ [7] ∧ ¬ (loaded [3, 2] [7]).mem.Valid 2 := by decide
theorem witness_InFollowsItsRule_effect :
    (loaded [3, 1] [5, 7]).inp = [5] ++ [7] ∧ (loaded [3, 1] [5, 7]).mem.Valid 1 := by decide

theorem witness_OutFollowsItsRule_bad : SourceBad [4, 2] .position 2 := by decide
theorem witness_OutFollowsItsRule_effect :
    SourceIs [4, 1] .position 1 1 ∧ SourceIs [104, -1] .immediate (-1) (-1) := by decide

theorem witness_JumpIfTrueFollowsItsRule_bad_sources :
    SourceBad [5, 3, 0] .position 3 ∧ SourceIs [5, 1, 3] .position 1 1 ∧ SourceBad [5, 1, 3] .position 3 := by decide
theorem witness_JumpIfTrueFollowsItsRule_taken :
    SourceIs [1105, -1, 0] .immediate (-1) (-1) ∧ (-1 : Int) ≠ 0 ∧ SourceIs [1105, -1, 0] .immediate 0 0 := by decide
theorem witness_JumpIfTrueFollowsItsRule_not_taken :
    SourceIs [1105, 0, 9] .immediate 0 0 ∧ SourceIs [1105, 0, 9] .immediate 9 9 := by decide
theorem witness_JumpIfFalseFollowsItsRule_bad_sources :
    SourceBad [6, -1, 0] .position (-1) ∧ SourceIs [106, 0, 3] .immediate 0 0 ∧ SourceBad [106, 0, 3] .position 3 := by
  decide
theorem witness_JumpIfFalseFollowsItsRule_taken :
    SourceIs [1106, 0, 9] .immediate 0 0 ∧ SourceIs [1106, 0, 9] .immediate 9 9 := by decide
theorem witness_JumpIfFalseFollowsItsRule_not_taken :
    SourceIs [1106, 1, 9] .immediate 1 1 ∧ (1 : Int) ≠ 0 ∧ SourceIs [1106, 1, 9] .immediate 9 9 := by decide

theorem witness_LessThanFollowsItsRule_bad_sources :
    SourceBad [7, 4, 0, 0] .position 4 ∧ SourceIs [107, 1, 4, 0] .immediate 1 1 ∧
      SourceBad [107, 1, 4, 0] .position 4 := by decide
theorem witness_LessThanFollowsItsRule_bad_destination :
    SourceIs [1107, 1, 2, 4] .immediate 1 1 ∧ SourceIs [1107, 1, 2, 4] .immediate 2 2 ∧
      ¬ Memory.Valid [1107, 1, 2, 4] 4 := by decide
theorem witness_LessThanFollowsItsRule_effect :
    SourceIs [1107, 1, 2, 3] .immediate 1 1 ∧ SourceIs [1107, 1, 2, 3] .immediate 2 2 ∧
      Memory.Valid [1107, 1, 2, 3] 3 := by decide
theorem witness_EqualsFollowsItsRule_bad_sources :
    SourceBad [8, -1, 0, 0] .position (-1) ∧ SourceIs [108, 1, -1, 0] .immediate 1 1 ∧
      SourceBad [108, 1, -1, 0] .position (-1) := by decide
theorem witness_EqualsFollowsItsRule_bad_destination :
    SourceIs [1108, 1, 1, -1] .immediate 1 1 ∧ ¬ Memory.Valid [1108, 1, 1, -1] (-1) := by decide
theorem witness_EqualsFollowsItsRule_effect :
    SourceIs [8, 0, 0, 0] .position 0 8 ∧ Memory.Valid [8, 0, 0, 0] 0 := by decide

theorem witness_SourceMayBeTheDestination :
    ppp.m1 = .position ∧ ppp.m2 = .position ∧ (loaded [1, 5, 5, 5, 99, 21] []).mem.cell 5 = some 21 ∧
      (loaded [1, 5, 5, 5, 99, 21] []).cfg.IsWord (2 * 21) := by decide

/-- Every instruction completes from one state, with a mode digit that has no effect set and unset. -/
theorem witness_UnusedModeDigitsHaveNoEffect_three :
    ∃ t, exec (.add iip 2 3 0) (loaded [0] []) = .next t ∧ t.status ≠ .faulted := ⟨_, rfl, by decide⟩
theorem witness_UnusedModeDigitsHaveNoEffect_out :
    ∃ t, exec (.out iip 7) (loaded [0] []) = .next t ∧ t.status ≠ .faulted := ⟨_, rfl, by decide⟩
theorem witness_UnusedModeDigitsHaveNoEffect_in :
    ∃ t, exec (.inp iip 0) (loaded [0] [1]) = .next t ∧ t.status ≠ .faulted := ⟨_, rfl, by decide⟩
theorem witness_UnusedModeDigitsHaveNoEffect_hlt :
    ∃ t, exec (.hlt iip) (loaded [0] []) = .next t ∧ t.status ≠ .faulted := ⟨_, rfl, by decide⟩
theorem witness_UnusedModeDigitsHaveNoEffect_jump :
    ∃ t, exec (.jt iip 1 0) (loaded [0] []) = .next t ∧ t.status ≠ .faulted := ⟨_, rfl, by decide⟩

theorem witness_ThreeOperandFrame :
    ∃ t, Instr.lt iip 1 2 0 ∈ [Instr.add iip 1 2 0, .mul iip 1 2 0, .lt iip 1 2 0, .eq iip 1 2 0] ∧
      exec (.lt iip 1 2 0) (loaded [9, 9] []) = .next t ∧ t.status ≠ .faulted := ⟨_, by decide, rfl, by decide⟩
/-- The fault clause, by an overflow at a valid destination and by the first invalid destination. -/
theorem witness_ThreeOperandFrame_faulted :
    (∃ t, exec (.mul iip minWord (-1) 0) (loaded [9, 9] []) = .next t ∧ t.status = .faulted) ∧
      (∃ t, exec (.eq iip 1 2 2) (loaded [9, 9] []) = .next t ∧ t.status = .faulted) ∧
      (loaded [9, 9] []).status ≠ .faulted := ⟨⟨_, rfl, by decide⟩, ⟨_, rfl, by decide⟩, by decide⟩
theorem witness_InputFrame :
    ∃ t, exec (.inp ppp 0) (loaded [9, 9] [4]) = .next t ∧ t.status ≠ .faulted := ⟨_, rfl, by decide⟩
theorem witness_InputFrame_faulted :
    ∃ t, exec (.inp ppp 2) (loaded [9, 9] [4]) = .next t ∧ (loaded [9, 9] [4]).status ≠ .faulted ∧ t.status = .faulted :=
  ⟨_, rfl, by decide, by decide⟩
theorem witness_NonStoringFrame :
    ∃ t, exec (.jf iip 0 1) (loaded [9, 9] [4]) = .next t ∧ t.status ≠ .faulted := ⟨_, rfl, by decide⟩
theorem witness_NonStoringFrame_faulted :
    ∃ t, exec (.out ppp 2) (loaded [9, 9] [4]) = .next t ∧ (loaded [9, 9] [4]).status ≠ .faulted ∧ t.status = .faulted :=
  ⟨_, rfl, by decide, by decide⟩

theorem witness_FaultingStepCommitsNothing :
    ∃ t, step (loaded [0] []) = .next t ∧ t.status = .faulted := ⟨_, rfl, by decide⟩
theorem witness_FaultRecordFollowsItsTable_fetch :
    ∃ t r, step (loaded [] []) = .next t ∧ t.status = .faulted ∧ t.fault = some r ∧ r.word = none :=
  ⟨_, _, rfl, by decide, rfl, by decide⟩
theorem witness_FaultRecordFollowsItsTable_operand :
    ∃ t r, step (loaded [4, 2] []) = .next t ∧ t.status = .faulted ∧ t.fault = some r ∧ r.cause = .outOfBounds ∧
      r.word ≠ none := ⟨_, _, rfl, by decide, rfl, by decide, by decide⟩
theorem witness_FaultRecordFollowsItsTable_input :
    ∃ t r, step (loaded [3, 0] []) = .next t ∧ t.status = .faulted ∧ t.fault = some r ∧ r.cause ≠ .outOfBounds :=
  ⟨_, _, rfl, by decide, rfl, by decide⟩
/-- Both clauses of the fault order are met, the first at every level of R99, and where two levels hold at once the
earlier one is reported. The records are R96's. -/
theorem witness_FirstFaultOfTheOrderIsReported_none : firstFault (loaded [99] []) = none := by decide
/-- Level 1, at the head N and at a negative head. -/
theorem witness_FirstFaultOfTheOrderIsReported_fetch :
    firstFault { loaded [99] [] with head := 1 } =
        some { cause := .outOfBounds, head := 1, word := none, addr := some 1 } ∧
      firstFault { loaded [99] [] with head := -1 } =
        some { cause := .outOfBounds, head := -1, word := none, addr := some (-1) } := by decide
/-- Level 2, before a bad digit. -/
theorem witness_FirstFaultOfTheOrderIsReported_opcode :
    (firstFault (loaded [210] [])).map (fun r => r.cause) = some .unknownOpcode := by decide
/-- Level 3, before a missing parameter. -/
theorem witness_FirstFaultOfTheOrderIsReported_mode :
    firstFault (loaded [20004] []) =
      some { cause := .unknownAddressingMode, head := 0, word := some 20004, addr := none } := by decide
/-- Level 4, for each parameter, before a bad operand that is there: the least missing address. -/
theorem witness_FirstFaultOfTheOrderIsReported_parameter :
    firstFault (loaded [1] []) = some { cause := .outOfBounds, head := 0, word := some 1, addr := some 1 } ∧
      firstFault (loaded [1, -1] []) = some { cause := .outOfBounds, head := 0, word := some 1, addr := some 2 } ∧
      firstFault (loaded [1, -1, -1] []) = some { cause := .outOfBounds, head := 0, word := some 1, addr := some 3 } := by
  decide
/-- Level 5, each source, at the addresses -1 and N: the first source before the second. -/
theorem witness_FirstFaultOfTheOrderIsReported_operand :
    firstFault (loaded [1, -1, 4, 4] []) = some { cause := .outOfBounds, head := 0, word := some 1, addr := some (-1) } ∧
      firstFault (loaded [1, 0, 4, -1] []) = some { cause := .outOfBounds, head := 0, word := some 1, addr := some 4 } := by
  decide
/-- Level 6, before a bad destination. -/
theorem witness_FirstFaultOfTheOrderIsReported_overflow :
    (firstFault (loaded [1101, maxWord, 1, 9] [])).map (fun r => r.cause) = some .overflow := by decide
/-- Level 7, before a bad destination. -/
theorem witness_FirstFaultOfTheOrderIsReported_input :
    (firstFault (loaded [3, 9] [])).map (fun r => r.cause) = some .inputExhausted := by decide
/-- Level 8, of a three-operand instruction and of IN, at the addresses N and -1. -/
theorem witness_FirstFaultOfTheOrderIsReported_destination :
    firstFault (loaded [1101, maxWord, 0, 4] []) =
        some { cause := .outOfBounds, head := 0, word := some 1101, addr := some 4 } ∧
      firstFault (loaded [3, -1] [7]) = some { cause := .outOfBounds, head := 0, word := some 3, addr := some (-1) } := by
  decide
theorem witness_NoStepOnceStopped :
    { loaded [99] [] with status := .halted }.status ≠ .running ∧ ∀ v ∈ [(99 : Int)], Config.standard.IsWord v := by
  decide

theorem witness_OnlyHaltReachesHalted : ∃ t, step (loaded [99] []) = .next t ∧ t.status = .halted := ⟨_, rfl, by decide⟩
theorem witness_HeadAdvancesOrJumps_advance :
    ∃ t, step (loaded [104, 7] []) = .next t ∧ t.status = .running ∧
      decode ((loaded [104, 7] []).mem.drop 0) = .ok (.out ⟨.immediate, .position, .position⟩ 7, []) :=
  ⟨_, rfl, by decide, by decide⟩
theorem witness_HeadAdvancesOrJumps_jump :
    ∃ t, step (loaded [1105, 1, 9] []) = .next t ∧ t.status = .running ∧
      decode ((loaded [1105, 1, 9] []).mem.drop 0) = .ok (.jt iip 1 9, []) ∧
      SourceIs (loaded [1105, 1, 9] []).mem .immediate 1 1 ∧ SourceIs (loaded [1105, 1, 9] []).mem .immediate 9 9 :=
  ⟨_, rfl, by decide, by decide, by decide, by decide⟩
theorem witness_HeadAdvancesOrJumps_jump_false :
    ∃ t, step (loaded [1106, 0, 9] []) = .next t ∧ t.status = .running ∧
      decode ((loaded [1106, 0, 9] []).mem.drop 0) = .ok (.jf iip 0 9, []) ∧
      SourceIs (loaded [1106, 0, 9] []).mem .immediate 0 0 ∧ SourceIs (loaded [1106, 0, 9] []).mem .immediate 9 9 :=
  ⟨_, rfl, by decide, by decide, by decide, by decide⟩
/-- The targets N and -1, with a true and with a false condition. -/
theorem witness_JumpOutsideTheTapeFaultsAtTheNextFetch :
    (loaded [0] []).status = .running ∧ SourceIs [0] .immediate 1 1 ∧ SourceIs [0] .position 0 0 ∧
      SourceIs [0] .immediate (-1) (-1) ∧ ¬ Memory.Valid [0] (-1) ∧ ¬ Memory.Valid [0] 1 := by decide
theorem witness_JumpToItselfNeverEnds :
    (loaded [1105, 1, 0] []).status = .running ∧ 0 ≤ (loaded [1105, 1, 0] []).head ∧ (1 : Int) ≠ 0 ∧
      decode ((loaded [1105, 1, 0] []).mem.drop 0) = .ok (.jt iip 1 0, []) ∧
      SourceIs (loaded [1105, 1, 0] []).mem .immediate 1 1 ∧
      SourceIs (loaded [1105, 1, 0] []).mem .immediate 0 (loaded [1105, 1, 0] []).head := by decide
theorem witness_JumpToItselfNeverEnds_jf :
    (loaded [1106, 0, 0] []).status = .running ∧ 0 ≤ (loaded [1106, 0, 0] []).head ∧
      decode ((loaded [1106, 0, 0] []).mem.drop 0) = .ok (.jf iip 0 0, []) ∧
      SourceIs (loaded [1106, 0, 0] []).mem .immediate 0 0 ∧
      SourceIs (loaded [1106, 0, 0] []).mem .immediate 0 (loaded [1106, 0, 0] []).head := by decide
theorem witness_WriteIsSeenByTheNextFetch_halt :
    (loaded [0, 0, 0, 0, 7] []).status = .running ∧ SourceIs [0, 0, 0, 0, 7] .immediate 99 99 ∧ SourceIs [0, 0, 0, 0, 7] .immediate 0 0 ∧
      Config.standard.IsWord (99 + 0) ∧ Memory.Valid [0, 0, 0, 0, 7] (0 + 4) ∧
      decodeWord (99 + 0) = .ok (.hlt, ppp) := by decide
theorem witness_WriteIsSeenByTheNextFetch_illegal :
    (loaded [0, 0, 0, 0, 99] []).status = .running ∧ SourceIs [0, 0, 0, 0, 99] .position 0 0 ∧ Config.standard.IsWord (0 + 0) ∧ Memory.Valid [0, 0, 0, 0, 99] (0 + 4) ∧
      decodeWord (0 + 0) = .error .unknownOpcode := by decide

/-- A LOAD of Words gives a state that meets the invariant, in which every instruction can stand. -/
theorem loaded_inv : (loaded [99, -7] [5]).Inv :=
  ⟨by decide, by decide, by decide, by decide, fun _ => rfl, fun h => by cases h⟩
theorem witness_StepKeepsInvariant : (loaded [99, -7] [5]).Inv ∧ ∃ t, step (loaded [99, -7] [5]) = .next t :=
  ⟨loaded_inv, _, rfl⟩
theorem witness_AcceptedLoadMeetsInvariant :
    Config.standard.Legal ∧ boot Config.standard [maxWord] [minWord] = .next (loaded [maxWord] [minWord]) :=
  ⟨by decide, by rw [boot, if_pos (by decide)]; rfl⟩
theorem witness_OutputsAreOnlyAppended :
    ∃ t, step (loaded [104, 7] []) = .next t ∧ t.out = [7] := ⟨_, rfl, by decide⟩
theorem witness_InputsAreOnlyTakenFromTheEnd :
    ∃ t, step (loaded [3, 1] [5, 7]) = .next t ∧ t.inp = [5] := ⟨_, rfl, by decide⟩
theorem witness_OutputsAreNeverRead : ∃ t, step (loaded [104, 7] []) = .next t := ⟨_, rfl⟩

theorem witness_LoadSetsEveryField :
    { loaded [99] [] with status := .halted }.status ≠ .running ∧
      (∀ v ∈ [maxWord, minWord], Config.standard.IsWord v) := by decide
theorem witness_LoadIsRefusedOutsideItsDomain_range :
    { loaded [99] [] with status := .faulted }.status ≠ .running ∧ maxWord + 1 ∈ [maxWord + 1] ∧
      ¬ Config.standard.IsWord (maxWord + 1) := by decide
theorem witness_LoadIsRefusedOutsideItsDomain_running : (loaded [99] []).status = .running := by decide
theorem witness_EmptyProgramFaultsAtTheFirstFetch : ∀ v ∈ [minWord], Config.standard.IsWord v := by decide
theorem witness_HostReadsByStatus :
    (loaded [] []).status = .running ∧ { loaded [] [] with status := .halted }.status = .halted ∧
      { loaded [] [] with status := .faulted }.status = .faulted := by decide

/-- A run that ends: one HLT word. -/
theorem halting_run : Run (loaded [99] []) { loaded [99] [] with status := .halted, head := 1 } :=
  ⟨1, by decide, by decide⟩
theorem witness_RunHasOneEndState :
    ∃ t, Run (loaded [99] []) t ∧ Run (loaded [99] []) t := ⟨_, halting_run, halting_run⟩
theorem witness_FinishedRunIsObserved : (loaded [99] []).Inv ∧ ∃ t, Run (loaded [99] []) t ∧ t.status = .halted :=
  ⟨⟨by decide, by decide, by decide, by decide, fun _ => rfl, fun h => by cases h⟩, _, halting_run, rfl⟩
theorem witness_SecondRunTakesNoStep : ∃ t, Run (loaded [99] []) t := ⟨_, halting_run⟩
theorem witness_OutputFeedsAnotherInstance :
    (loaded [99] []).Inv ∧ (∃ t, Run (loaded [99] []) t ∧ t.status = .halted) ∧
      ∀ v ∈ [maxWord], (loaded [99] []).cfg.IsWord v :=
  ⟨witness_FinishedRunIsObserved.1, witness_FinishedRunIsObserved.2, by decide⟩
/-- The two ends of R108 besides Halted: a run that faults and one that never ends. -/
theorem witness_RunHaltsFaultsOrHangs_faulted : ∃ t, Run (loaded [] []) t ∧ t.status = .faulted :=
  ⟨_, ⟨1, rfl, by decide⟩, by decide⟩
theorem witness_InstancesAreIndependent :
    (0 : Nat) ≠ 1 ∧ stepInstance 0 [loaded [99] [], loaded [] []] ≠ [loaded [99] [], loaded [] []] := by decide
theorem witness_PseudoInstructionsExpandAsListed :
    Memory.cell [7, 0] 0 = some 7 ∧ Config.standard.IsWord 7 ∧ Config.standard.IsWord (-7) ∧ Memory.Valid [7, 0] 1 := by
  decide

end Sys2Proof.Tests
end

section
/-! PROOFS. How the decoder sorts the integers (spec/30_encoding.md R49 to R54), one lemma for each answer. -/

namespace Sys2Proof

open Sys2Proof.Machine

/-- The opcode check of R52, read on the integer itself. -/
theorem Opcode.ofCode_mod_eq_none_iff {w : Int} (hw : 0 ≤ w) :
    Opcode.ofCode (w.toNat % 100) = none ↔ w % 100 ∉ legalOpcodes := by
  rw [Opcode.ofCode_eq_none_iff]
  simp only [legalOpcodes, List.mem_cons, List.not_mem_nil, or_false]
  omega

/-- The mode check of R53, read on the integer itself. -/
theorem decodeModes_toNat_eq_none_iff {w : Int} (hw : 0 ≤ w) :
    decodeModes w.toNat = none ↔
      w / 100 % 10 ∉ [0, 1] ∨ w / 1000 % 10 ∉ [0, 1] ∨ w / 10000 % 10 ∉ [0, 1] := by
  rw [decodeModes_eq_none_iff]
  simp only [digit, Nat.reducePow, List.mem_cons, List.not_mem_nil, or_false]
  omega

theorem Opcode.code_lt_hundred (op : Opcode) : op.code < 100 := by
  cases op <;> decide

theorem Mode.digit_le_one (m : Mode) : m.digit ≤ 1 := by
  cases m <;> decide

/-- R54: the sign and the opcode field are looked at before anything else. -/
theorem decodeWord_eq_unknownOpcode_iff (w : Int) :
    decodeWord w = .error .unknownOpcode ↔ w < 0 ∨ Opcode.ofCode (w.toNat % 100) = none := by
  unfold decodeWord
  by_cases hneg : w < 0
  · simp [hneg]
  · cases Opcode.ofCode (w.toNat % 100) with
    | none => simp
    | some op =>
      by_cases hbig : 100000 ≤ w
      · simp [hneg, hbig]
      · cases decodeModes w.toNat <;> simp [hneg, hbig]

/-- R54: the digits above the fifth and the mode digits count only once the opcode field is one of the nine. -/
theorem decodeWord_eq_unknownAddressingMode_iff (w : Int) :
    decodeWord w = .error .unknownAddressingMode ↔
      0 ≤ w ∧ Opcode.ofCode (w.toNat % 100) ≠ none ∧ (100000 ≤ w ∨ decodeModes w.toNat = none) := by
  unfold decodeWord
  by_cases hneg : w < 0
  · simp [hneg]
  · cases Opcode.ofCode (w.toNat % 100) with
    | none => simp
    | some op =>
      by_cases hbig : 100000 ≤ w
      · simp [hneg, hbig, Int.not_lt.1 hneg]
      · cases decodeModes w.toNat <;> simp [hneg, hbig, Int.not_lt.1 hneg]

/-- The fields of R49: the word the encoder writes is the one with these digits. -/
theorem eq_encodeWord_iff_digits (w : Int) (op : Opcode) (m : Modes) :
    w = encodeWord op m ↔
      0 ≤ w ∧ w < 100000 ∧ w % 100 = op.code ∧
        w / 100 % 10 = m.m1.digit ∧ w / 1000 % 10 = m.m2.digit ∧ w / 10000 % 10 = m.m3.digit := by
  have hop := op.code_lt_hundred
  have h1 := m.m1.digit_le_one
  have h2 := m.m2.digit_le_one
  have h3 := m.m3.digit_le_one
  unfold encodeWord
  omega

/-- Settles O4: each rejection by the check that raises it, each acceptance by the word the encoder writes. -/
theorem decoderClassifiesEveryWord : Obligations.DecoderClassifiesEveryWord := by
  intro w
  refine ⟨?_, ?_, fun op m => ?_⟩
  · rw [decodeWord_eq_unknownOpcode_iff]
    by_cases hneg : w < 0
    · simp only [hneg, true_or]
    · rw [Opcode.ofCode_mod_eq_none_iff (Int.not_lt.1 hneg)]
  · rw [decodeWord_eq_unknownAddressingMode_iff]
    refine and_congr_right fun hw => ?_
    rw [Ne, Opcode.ofCode_mod_eq_none_iff hw, not_not, decodeModes_toNat_eq_none_iff hw]
  · rw [decodeWord_eq_ok_iff, eq_encodeWord_iff_digits]

end Sys2Proof

namespace Sys2Proof.Machine

/-- Settles O11: each clause is one case of what `operand` can answer. -/
theorem operandFollowsItsMode : Obligations.OperandFollowsItsMode := by
  intro m p
  refine ⟨?_, fun v hv => ?_, fun hp => ?_⟩
  · exact (operand_ok_iff m .immediate p p).2 (.inl ⟨rfl, rfl⟩)
  · exact (operand_ok_iff m .position p v).2 (.inr ⟨rfl, hv⟩)
  · exact (operand_error_iff m .position p _).2 ⟨rfl, hp, rfl⟩

end Sys2Proof.Machine
end

section
/-! PROOFS. The engine cycle (spec/40_engine_cycle.md R66 to R77): what the fetch half answers, what a faulting step
leaves, and where the head goes. -/

namespace Sys2Proof.Machine

/-! ## The fetch half, forwards -/

theorem fetch_of_invalid_head {s : State} (h : ¬ s.mem.Valid s.head) :
    fetch s = .error { word := none, raised := .outOfBounds s.head } := by
  have hr : memRead s.mem s.head = .error (.outOfBounds s.head) := (memRead_error_iff _ _ _).2 ⟨h, rfl⟩
  simp only [fetch, hr]

section decoded

variable {s : State} {w : Int} {op : Opcode} {m : Modes}

/-- After a legal word the fetch half is the parameter fetch (R67, R68): its words make the instruction. -/
theorem fetch_of_params_ok (hc : s.mem.cell s.head = some w) (hd : decodeWord w = .ok (op, m)) {ps : List Int}
    (hp : fetchParams s.mem (s.head + 1) op.paramCount = .ok ps) : fetch s = .ok (Instr.ofParams op m ps) := by
  simp only [fetch, (memRead_ok_iff _ _ _).2 hc, hd, hp]

/-- After a legal word the fetch half is the parameter fetch (R67, R68): its fault is recorded with that word. -/
theorem fetch_of_params_error (hc : s.mem.cell s.head = some w) (hd : decodeWord w = .ok (op, m)) {r : Raise}
    (hp : fetchParams s.mem (s.head + 1) op.paramCount = .error r) :
    fetch s = .error { word := some w, raised := r } := by
  simp only [fetch, (memRead_ok_iff _ _ _).2 hc, hd, hp]

end decoded

theorem fetchParams_of_cells {m : Memory} {n : Nat} {a : Int} {ps : List Int} (hlen : ps.length = n)
    (hcell : ∀ k : Nat, k < n → m.cell (a + k) = ps[k]?) : fetchParams m a n = .ok ps := by
  induction ps generalizing n a with
  | nil =>
    subst hlen
    rfl
  | cons p ps ih =>
    subst hlen
    have hfirst : memRead m a = .ok p := (memRead_ok_iff _ _ _).2 (by simpa using hcell 0 (by simp))
    have hrest : fetchParams m (a + 1) ps.length = .ok ps := by
      refine ih rfl fun k hk => ?_
      have := hcell (k + 1) (by simpa using hk)
      rwa [List.getElem?_cons_succ, Nat.cast_add_one, add_comm (k : Int), ← add_assoc] at this
    simp only [List.length_cons, fetchParams, hfirst, hrest]
    rfl

/-- The first invalid address past a valid one is the length of the tape. -/
theorem Memory.first_invalid_eq_length {m : Memory} {a : Int} {k : Nat} (ha : m.Valid a)
    (hbefore : ∀ j : Nat, 1 ≤ j → j < k → m.Valid (a + j)) (hbad : ¬ m.Valid (a + k)) : a + k = m.length := by
  have hlast : a + k ≤ m.length := by
    rcases Nat.lt_or_ge 1 k with hk | hk
    · have := (hbefore (k - 1) (by omega) (by omega)).2
      omega
    · have := ha.2
      omega
  have := ha.1
  unfold Memory.Valid at hbad
  omega

/-- The first missing parameter is the fault of the whole parameter fetch (R68). -/
theorem fetchParams_of_first_invalid {m : Memory} {a : Int} {n k : Nat} (ha : m.Valid a) (hk : k ≤ n)
    (hbefore : ∀ j : Nat, 1 ≤ j → j < k → m.Valid (a + j)) (hbad : ¬ m.Valid (a + k)) :
    fetchParams m (a + 1) n = .error (.outOfBounds (a + k)) := by
  have hend := Memory.first_invalid_eq_length ha hbefore hbad
  obtain ⟨h0, h1⟩ := ha
  rw [fetchParams_eq m n (a + 1) (by omega) (by omega), if_pos (by omega), hend]

/-- Settles O5: the fetch half raises before it has a word; `takeFault` of that raise is the `aborted` state of the
rule by definition. -/
theorem fetchOutsideTheTapeFaults : Obligations.FetchOutsideTheTapeFaults := by
  intro s hs hbad
  exact step_fetch_fault hs (fetch_of_invalid_head hbad)

/-- Settles O8: the fault of the parameter fetch, or the words it answers, decide the step. -/
theorem parametersAreFetchedFirst : Obligations.ParametersAreFetchedFirst := by
  intro s w op m hs hc hd
  refine ⟨fun k _ hk hbefore hbad => ?_, fun ps hlen hcell => ?_⟩
  · have hp := fetchParams_of_first_invalid (Memory.valid_of_cell hc) hk hbefore hbad
    exact step_fetch_fault hs (fetch_of_params_error hc hd hp)
  · exact step_running hs (fetch_of_params_ok hc hd (fetchParams_of_cells hlen hcell))

/-! ## How a step ends -/

theorem Faults.status_eq {i : Instr} {s t : State} (h : Faults i s t) : t.status = .faulted := by
  obtain ⟨r, rfl⟩ := h
  rfl

/-- Only a fault makes an instruction end in Faulted, unless it began there. -/
theorem Completed.status_ne_faulted {i : Instr} {s t : State} (h : Completed i s t) (hs : s.status ≠ .faulted) :
    t.status ≠ .faulted := by
  rcases h.status with ⟨-, ht⟩ | ⟨-, ht⟩
  · simp [ht]
  · rwa [ht]

/-- A step that ends in Faulted took a fault, of its fetch half or of its instruction. -/
theorem step_next_faulted {s t : State} (h : step s = .next t) (ht : t.status = .faulted) :
    ∃ w r, t = s.takeFault w r := by
  obtain ⟨hs, ⟨i, -, he⟩ | ⟨f, -, rfl⟩⟩ := step_next h
  · rcases exec_next_cases he with ⟨r, rfl⟩ | hcomp
    · exact ⟨_, r, rfl⟩
    · exact absurd ht (hcomp.status_ne_faulted (by simp [hs]))
  · exact ⟨_, _, rfl⟩

/-- A step that does not end in Faulted ran the instruction at the head. -/
theorem step_next_not_faulted {s t : State} (h : step s = .next t) (ht : t.status ≠ .faulted) :
    ∃ i, fetch s = .ok i ∧ exec i s = .next t := by
  obtain ⟨-, hi | ⟨f, -, rfl⟩⟩ := step_next h
  · exact hi
  · exact absurd rfl ht

/-- Settles O26: every faulting step is `takeFault`, which writes the two fields. -/
theorem faultingStepCommitsNothing : Obligations.FaultingStepCommitsNothing := by
  intro s t h ht
  obtain ⟨w, r, rfl⟩ := step_next_faulted h ht
  exact ⟨{ cause := r.cause, head := s.head, word := w, addr := r.addr }, rfl, rfl⟩

/-! ## Where the head goes -/

theorem State.nextHead_eq (s : State) (op : Opcode) : s.nextHead op = s.head + 1 + op.paramCount := by
  simp only [State.nextHead, Opcode.length]
  omega

/-- R72: every instruction but the jumps, once completed, leaves the head after its own words. -/
theorem exec_head_of_no_jump {i : Instr} {s t : State} (h : exec i s = .next t) (ht : t.status ≠ .faulted)
    (hjt : i.opcode ≠ .jt) (hjf : i.opcode ≠ .jf) : t.head = s.nextHead i.opcode := by
  have hok : ¬ Faults i s t := fun hf => ht hf.status_eq
  cases i with
  | add m p1 p2 p3 =>
    obtain ⟨_, _, -, -, -, -, rfl⟩ := (execAdd_next h).resolve_left hok
    rfl
  | mul m p1 p2 p3 =>
    obtain ⟨_, _, -, -, -, -, rfl⟩ := (execMul_next h).resolve_left hok
    rfl
  | inp m p1 =>
    obtain ⟨_, _, -, -, rfl⟩ := (execInp_next h).resolve_left hok
    rfl
  | out m p1 =>
    obtain ⟨_, -, rfl⟩ := (execOut_next h).resolve_left hok
    rfl
  | jt m p1 p2 => exact absurd rfl hjt
  | jf m p1 p2 => exact absurd rfl hjf
  | lt m p1 p2 p3 =>
    obtain ⟨_, _, -, -, -, rfl⟩ := (execLt_next h).resolve_left hok
    rfl
  | eq m p1 p2 p3 =>
    obtain ⟨_, _, -, -, -, rfl⟩ := (execEq_next h).resolve_left hok
    rfl
  | hlt m =>
    rw [execHlt_next h]
    rfl

section branch

variable {m : Modes} {p1 p2 c a : Int} {s : State}

/-- With both operands resolved the F2 shape completes and writes the head alone. -/
theorem conclude_branch_of_sources (op : Opcode) (taken : Int → Bool) (hc : SourceIs s.mem m.m1 p1 c)
    (ha : SourceIs s.mem m.m2 p2 a) :
    conclude op m s (branch op taken m p1 p2 s) = .next { s with head := if taken c then a else s.nextHead op } := by
  have hc' := (operand_ok_iff _ _ _ _).2 hc
  have ha' := (operand_ok_iff _ _ _ _).2 ha
  exact (conclude_next_iff _ _ _ _ _).2 (.inl ((branch_ok_iff _ _ _ _ _ _ _).2 ⟨c, a, hc', ha', rfl⟩))

/-- R85. -/
theorem exec_jt_of_sources (hc : SourceIs s.mem m.m1 p1 c) (ha : SourceIs s.mem m.m2 p2 a) :
    exec (.jt m p1 p2) s = .next { s with head := if c ≠ 0 then a else s.nextHead .jt } := by
  simp only [exec, execJt, conclude_branch_of_sources _ _ hc ha, decide_eq_true_eq]

/-- R86. -/
theorem exec_jf_of_sources (hc : SourceIs s.mem m.m1 p1 c) (ha : SourceIs s.mem m.m2 p2 a) :
    exec (.jf m p1 p2) s = .next { s with head := if c = 0 then a else s.nextHead .jf } := by
  simp only [exec, execJf, conclude_branch_of_sources _ _ hc ha, decide_eq_true_eq]

end branch

/-- Settles O31: the step ran the decoded instruction, which either advances the head or is a jump. -/
theorem headAdvancesOrJumps : Obligations.HeadAdvancesOrJumps := by
  intro s t i rest h ht hd
  have hok : t.status ≠ .faulted := by simp [ht]
  obtain ⟨i', hf, he⟩ := step_next_not_faulted h hok
  obtain ⟨-, rest', hd'⟩ := (fetch_ok_iff s i').1 hf
  obtain ⟨rfl, -⟩ := Prod.mk.inj (Except.ok.inj (hd.symm.trans hd'))
  simp only [← State.nextHead_eq]
  refine ⟨exec_head_of_no_jump he hok, ?_, ?_⟩
  · rintro m p1 p2 c a rfl hc ha
    rw [exec_jt_of_sources hc ha] at he
    cases he
    rfl
  · rintro m p1 p2 c a rfl hc ha
    rw [exec_jf_of_sources hc ha] at he
    cases he
    rfl

/-! ## LOAD, the only way out of Halted and Faulted -/

theorem hostLoad_of_words {s : State} {image inputs : List Int} (hs : s.status ≠ .running)
    (hmem : ∀ v ∈ image, s.cfg.IsWord v) (hinp : ∀ v ∈ inputs, s.cfg.IsWord v) :
    hostLoad s image inputs = .next (State.load s.cfg image inputs) := by
  rw [hostLoad, if_neg hs, boot, if_pos ⟨hmem, hinp⟩]

/-- Settles O29: a step needs Running, and an accepted LOAD gives R28's state. -/
theorem noStepOnceStopped : Obligations.NoStepOnceStopped := by
  intro s hs
  refine ⟨fun t h => hs (step_next h).1, fun image inputs hmem hinp => ?_⟩
  exact ⟨_, hostLoad_of_words hs hmem hinp, State.load_status _ _ _⟩

end Sys2Proof.Machine
end

section
/-! PROOFS. The F3 shape forwards, and ADD and MUL (spec/41_arithmetic.md R81, R82): which check of the shape fails
first, or the cell it writes. -/

namespace Sys2Proof.Machine

/-! ## The encoding line of a rule -/

theorem encodeWord_eq_wordOf (op : Opcode) (m : Modes) : encodeWord op m = wordOf op.code m := by
  simp [encodeWord, wordOf]

theorem encode_eq_wordOf_cons (i : Instr) : encode i = wordOf i.opcode.code i.modes :: i.params := by
  rw [encode, Instr.word, encodeWord_eq_wordOf]

/-! ## The F3 shape, forwards -/

/-- A raise in an instruction ends it in the aborted state of R97, with the word of the encoding line (R96). -/
theorem conclude_of_error {op : Opcode} {m : Modes} {s : State} {x : Except Raise State} {r : Raise}
    (h : x = .error r) : conclude op m s x = .next (s.aborted r.cause (some (wordOf op.code m)) r.addr) := by
  rw [h, ← encodeWord_eq_wordOf]
  rfl

theorem operand_of_bad {mem : Memory} {d : Mode} {p : Int} (h : SourceBad mem d p) :
    operand mem d p = .error (.outOfBounds p) :=
  (operand_error_iff _ _ _ _).2 ⟨h.1, h.2, rfl⟩

theorem operand_of_source {mem : Memory} {d : Mode} {p v : Int} (h : SourceIs mem d p v) : operand mem d p = .ok v :=
  (operand_ok_iff _ _ _ _).2 h

section binary

variable {op : Opcode} {f : Int → Int → Except Raise Int} {m : Modes} {p1 p2 p3 a b r : Int} {e : Raise} {s : State}

theorem conclude_binary_of_bad_first (h : SourceBad s.mem m.m1 p1) :
    conclude op m s (binary op f m p1 p2 p3 s) =
      .next (s.aborted .outOfBounds (some (wordOf op.code m)) (some p1)) :=
  conclude_of_error ((binary_error_iff _ _ _ _ _ _ _ (.outOfBounds p1)).2 (.inl (operand_of_bad h)))

theorem conclude_binary_of_bad_second (ha : SourceIs s.mem m.m1 p1 a) (h : SourceBad s.mem m.m2 p2) :
    conclude op m s (binary op f m p1 p2 p3 s) =
      .next (s.aborted .outOfBounds (some (wordOf op.code m)) (some p2)) :=
  conclude_of_error ((binary_error_iff _ _ _ _ _ _ _ (.outOfBounds p2)).2
    (.inr (.inl ⟨a, operand_of_source ha, operand_of_bad h⟩)))

theorem conclude_binary_of_compute_error (ha : SourceIs s.mem m.m1 p1 a) (hb : SourceIs s.mem m.m2 p2 b)
    (h : f a b = .error e) :
    conclude op m s (binary op f m p1 p2 p3 s) = .next (s.aborted e.cause (some (wordOf op.code m)) e.addr) :=
  conclude_of_error ((binary_error_iff _ _ _ _ _ _ _ _).2
    (.inr (.inr (.inl ⟨a, b, operand_of_source ha, operand_of_source hb, h⟩))))

theorem conclude_binary_of_bad_destination (ha : SourceIs s.mem m.m1 p1 a) (hb : SourceIs s.mem m.m2 p2 b)
    (hr : f a b = .ok r) (h : ¬ s.mem.Valid p3) :
    conclude op m s (binary op f m p1 p2 p3 s) =
      .next (s.aborted .outOfBounds (some (wordOf op.code m)) (some p3)) :=
  conclude_of_error ((binary_error_iff _ _ _ _ _ _ _ (.outOfBounds p3)).2
    (.inr (.inr (.inr ⟨a, b, r, operand_of_source ha, operand_of_source hb, hr, h, rfl⟩))))

/-- With every check passed the F3 shape writes the cell `p3` and the head alone. -/
theorem conclude_binary_of_valid (ha : SourceIs s.mem m.m1 p1 a) (hb : SourceIs s.mem m.m2 p2 b)
    (hr : f a b = .ok r) (h : s.mem.Valid p3) :
    conclude op m s (binary op f m p1 p2 p3 s) =
      .next { s with mem := s.mem.set p3.toNat r, head := s.nextHead op } :=
  (conclude_next_iff _ _ _ _ _).2 (.inl ((binary_ok_iff _ _ _ _ _ _ _ _).2
    ⟨a, b, r, operand_of_source ha, operand_of_source hb, hr, h, rfl⟩))

end binary

/-! ## ADD and MUL -/

theorem exec_add (m : Modes) (p1 p2 p3 : Int) (s : State) :
    exec (.add m p1 p2 p3) s =
      conclude .add m s (binary .add (fun a b => checkRange s.cfg (a + b)) m p1 p2 p3 s) := rfl

theorem exec_mul (m : Modes) (p1 p2 p3 : Int) (s : State) :
    exec (.mul m p1 p2 p3) s =
      conclude .mul m s (binary .mul (fun a b => checkRange s.cfg (a * b)) m p1 p2 p3 s) := rfl

/-- What R81 and R82 have in common: the outcome of an F3 instruction that stores the exact value `g a b` and raises
`Overflow` where that is no Word. -/
theorem conclude_binary_checkRange (op : Opcode) (g : Int → Int → Int) (m : Modes) (p1 p2 p3 : Int) (s : State)
    {out : Result}
    (hout : out = conclude op m s (binary op (fun a b => checkRange s.cfg (g a b)) m p1 p2 p3 s)) :
    (SourceBad s.mem m.m1 p1 → out = .next (s.aborted .outOfBounds (some (wordOf op.code m)) (some p1))) ∧
    ∀ a, SourceIs s.mem m.m1 p1 a →
      (SourceBad s.mem m.m2 p2 → out = .next (s.aborted .outOfBounds (some (wordOf op.code m)) (some p2))) ∧
      ∀ b, SourceIs s.mem m.m2 p2 b →
        (¬ s.cfg.IsWord (g a b) → out = .next (s.aborted .overflow (some (wordOf op.code m)) none)) ∧
        (s.cfg.IsWord (g a b) → ¬ s.mem.Valid p3 →
          out = .next (s.aborted .outOfBounds (some (wordOf op.code m)) (some p3))) ∧
        (s.cfg.IsWord (g a b) → s.mem.Valid p3 →
          out = .next { s with mem := s.mem.set p3.toNat (g a b), head := s.nextHead op }) := by
  subst hout
  refine ⟨conclude_binary_of_bad_first, fun a ha => ⟨conclude_binary_of_bad_second ha, fun b hb => ?_⟩⟩
  have hin (hw : s.cfg.IsWord (g a b)) : checkRange s.cfg (g a b) = .ok (g a b) :=
    (checkRange_ok_iff _ _ _).2 ⟨hw, rfl⟩
  refine ⟨fun hw => ?_, fun hw hp => ?_, fun hw hp => ?_⟩
  · exact conclude_binary_of_compute_error (e := { cause := .overflow, addr := none }) ha hb
      ((checkRange_error_iff _ _ _).2 ⟨hw, rfl⟩)
  · exact conclude_binary_of_bad_destination ha hb (hin hw) hp
  · exact conclude_binary_of_valid ha hb (hin hw) hp

/-- Settles O12: ADD is the checked F3 shape with the exact sum; its opcode field 1 and its length 4 are by
computation. -/
theorem addFollowsItsRule : Obligations.AddFollowsItsRule := by
  intro m p1 p2 p3 s
  exact ⟨encode_eq_wordOf_cons _, conclude_binary_checkRange .add (· + ·) m p1 p2 p3 s (exec_add m p1 p2 p3 s)⟩

/-- Settles O13: MUL is the checked F3 shape with the exact product; its opcode field 2 and its length 4 are by
computation. -/
theorem mulFollowsItsRule : Obligations.MulFollowsItsRule := by
  intro m p1 p2 p3 s
  exact ⟨encode_eq_wordOf_cons _, conclude_binary_checkRange .mul (· * ·) m p1 p2 p3 s (exec_mul m p1 p2 p3 s)⟩

end Sys2Proof.Machine
end

section
/-! PROOFS. IN and OUT (spec/42_io.md R83, R84): the first check that fails, or the effect of the completed
instruction. -/

namespace Sys2Proof.Machine

section inputOutput

variable {m : Modes} {p1 v : Int} {rest : List Int} {s : State}

/-! ## IN -/

/-- R83's first check: an empty queue is reported whatever the destination is. -/
theorem exec_inp_of_empty (h : s.inp = []) :
    exec (.inp m p1) s = .next (s.aborted .inputExhausted (some (wordOf 3 m)) none) := by
  have hpop := (popInput_error_iff s.inp _).2 ⟨h, rfl⟩
  refine conclude_of_error (op := .inp) (r := { cause := .inputExhausted, addr := none }) ?_
  rw [hpop]
  rfl

/-- R83's second check: the input taken is not stored at an invalid destination. -/
theorem exec_inp_of_bad_destination (h : s.inp = rest ++ [v]) (hp : ¬ s.mem.Valid p1) :
    exec (.inp m p1) s = .next (s.aborted .outOfBounds (some (wordOf 3 m)) (some p1)) := by
  have hpop := (popInput_ok_iff s.inp v rest).2 h
  have hwrite := (memWrite_error_iff s.mem p1 v _).2 ⟨hp, rfl⟩
  refine conclude_of_error (op := .inp) (r := .outOfBounds p1) ?_
  simp only [hpop, bind, Except.bind, hwrite]

/-- With both checks passed IN moves the last input to the cell `p1`. -/
theorem exec_inp_of_valid (h : s.inp = rest ++ [v]) (hp : s.mem.Valid p1) :
    exec (.inp m p1) s =
      .next { s with mem := s.mem.set p1.toNat v, inp := rest, head := s.nextHead .inp } := by
  have hpop := (popInput_ok_iff s.inp v rest).2 h
  have hwrite := (memWrite_ok_iff s.mem p1 v _).2 ⟨hp, rfl⟩
  refine (conclude_next_iff .inp m s _ _).2 (.inl ?_)
  simp only [hpop, bind, Except.bind, hwrite, pure, Except.pure]

/-! ## OUT -/

theorem exec_out_of_bad_source (h : SourceBad s.mem m.m1 p1) :
    exec (.out m p1) s = .next (s.aborted .outOfBounds (some (wordOf 4 m)) (some p1)) := by
  refine conclude_of_error (op := .out) (r := .outOfBounds p1) ?_
  rw [operand_of_bad h]
  rfl

/-- With its source resolved OUT appends the value and advances the head. -/
theorem exec_out_of_source (h : SourceIs s.mem m.m1 p1 v) :
    exec (.out m p1) s = .next { s with out := s.out ++ [v], head := s.nextHead .out } := by
  refine (conclude_next_iff .out m s _ _).2 (.inl ?_)
  rw [operand_of_source h]
  rfl

end inputOutput

/-- Settles O14: the queue decides before the destination, and the input split off is the last one; the opcode field 3
and the length 2 are by computation. -/
theorem inFollowsItsRule : Obligations.InFollowsItsRule := by
  intro m p1 s
  refine ⟨encode_eq_wordOf_cons _, exec_inp_of_empty, fun rest v h => ⟨?_, ?_⟩⟩
  · exact exec_inp_of_bad_destination h
  · exact exec_inp_of_valid h

/-- Settles O15: the source is OUT's only check; the opcode field 4 and the length 2 are by computation. -/
theorem outFollowsItsRule : Obligations.OutFollowsItsRule := by
  intro m p1 s
  exact ⟨encode_eq_wordOf_cons _, exec_out_of_bad_source, fun _ => exec_out_of_source⟩

end Sys2Proof.Machine
end

section
/-! PROOFS. JT and JF (spec/43_branch.md R85, R86): both operands are resolved before the condition decides. -/

namespace Sys2Proof.Machine

section branchRule

variable {op : Opcode} {taken : Int → Bool} {m : Modes} {p1 p2 c t : Int} {s : State}

/-! ## The faults of the F2 shape -/

theorem conclude_branch_of_bad_condition (h : SourceBad s.mem m.m1 p1) :
    conclude op m s (branch op taken m p1 p2 s) =
      .next (s.aborted .outOfBounds (some (wordOf op.code m)) (some p1)) :=
  conclude_of_error ((branch_error_iff _ _ _ _ _ _ (.outOfBounds p1)).2 (.inl (operand_of_bad h)))

/-- R69: the target is resolved whether or not `taken c`. -/
theorem conclude_branch_of_bad_target (hc : SourceIs s.mem m.m1 p1 c) (h : SourceBad s.mem m.m2 p2) :
    conclude op m s (branch op taken m p1 p2 s) =
      .next (s.aborted .outOfBounds (some (wordOf op.code m)) (some p2)) :=
  conclude_of_error ((branch_error_iff _ _ _ _ _ _ (.outOfBounds p2)).2
    (.inr ⟨c, operand_of_source hc, operand_of_bad h⟩))

/-! ## The two ways a resolved jump goes -/

theorem exec_jt_taken (hc : SourceIs s.mem m.m1 p1 c) (ht : SourceIs s.mem m.m2 p2 t) (h : c ≠ 0) :
    exec (.jt m p1 p2) s = .next { s with head := t } := by
  rw [exec_jt_of_sources hc ht, if_pos h]

theorem exec_jt_not_taken (hc : SourceIs s.mem m.m1 p1 c) (ht : SourceIs s.mem m.m2 p2 t) (h : c = 0) :
    exec (.jt m p1 p2) s = .next { s with head := s.nextHead .jt } := by
  rw [exec_jt_of_sources hc ht, if_neg (not_not.2 h)]

theorem exec_jf_taken (hc : SourceIs s.mem m.m1 p1 c) (ht : SourceIs s.mem m.m2 p2 t) (h : c = 0) :
    exec (.jf m p1 p2) s = .next { s with head := t } := by
  rw [exec_jf_of_sources hc ht, if_pos h]

theorem exec_jf_not_taken (hc : SourceIs s.mem m.m1 p1 c) (ht : SourceIs s.mem m.m2 p2 t) (h : c ≠ 0) :
    exec (.jf m p1 p2) s = .next { s with head := s.nextHead .jf } := by
  rw [exec_jf_of_sources hc ht, if_neg h]

end branchRule

/-- Settles O16: JT is the F2 shape, taken where the condition is not 0; its opcode field 5 and its length 3 are by
computation. -/
theorem jumpIfTrueFollowsItsRule : Obligations.JumpIfTrueFollowsItsRule := by
  intro m p1 p2 s
  refine ⟨encode_eq_wordOf_cons _, conclude_branch_of_bad_condition (op := .jt), fun c hc => ?_⟩
  refine ⟨conclude_branch_of_bad_target (op := .jt) hc, fun t ht => ⟨?_, ?_⟩⟩
  · exact exec_jt_taken hc ht
  · exact exec_jt_not_taken hc ht

/-- Settles O17: JF is the F2 shape, taken where the condition is 0; its opcode field 6 and its length 3 are by
computation. -/
theorem jumpIfFalseFollowsItsRule : Obligations.JumpIfFalseFollowsItsRule := by
  intro m p1 p2 s
  refine ⟨encode_eq_wordOf_cons _, conclude_branch_of_bad_condition (op := .jf), fun c hc => ?_⟩
  refine ⟨conclude_branch_of_bad_target (op := .jf) hc, fun t ht => ⟨?_, ?_⟩⟩
  · exact exec_jf_taken hc ht
  · exact exec_jf_not_taken hc ht

end Sys2Proof.Machine
end

section
/-! PROOFS. LT and EQ (spec/44_compare.md R87, R88): an F3 instruction that cannot overflow, with 1 or 0 stored. -/

namespace Sys2Proof.Machine

theorem truthWord_decide (p : Prop) [Decidable p] : truthWord (decide p) = if p then 1 else 0 := by
  simp only [truthWord, decide_eq_true_eq]

theorem exec_lt (m : Modes) (p1 p2 p3 : Int) (s : State) :
    exec (.lt m p1 p2 p3) s =
      conclude .lt m s (binary .lt (fun a b => .ok (truthWord (decide (a < b)))) m p1 p2 p3 s) := rfl

theorem exec_eq (m : Modes) (p1 p2 p3 : Int) (s : State) :
    exec (.eq m p1 p2 p3) s =
      conclude .eq m s (binary .eq (fun a b => .ok (truthWord (decide (a = b)))) m p1 p2 p3 s) := rfl

/-- What R87 and R88 have in common: the outcome of an F3 instruction that stores the truth of `rel a b`, whose only
faults are those of its three addresses. -/
theorem conclude_binary_truthWord (op : Opcode) (rel : Int → Int → Prop) [DecidableRel rel] (m : Modes)
    (p1 p2 p3 : Int) (s : State) {out : Result}
    (hout : out = conclude op m s (binary op (fun a b => .ok (truthWord (decide (rel a b)))) m p1 p2 p3 s)) :
    (SourceBad s.mem m.m1 p1 → out = .next (s.aborted .outOfBounds (some (wordOf op.code m)) (some p1))) ∧
    ∀ a, SourceIs s.mem m.m1 p1 a →
      (SourceBad s.mem m.m2 p2 → out = .next (s.aborted .outOfBounds (some (wordOf op.code m)) (some p2))) ∧
      ∀ b, SourceIs s.mem m.m2 p2 b →
        (¬ s.mem.Valid p3 → out = .next (s.aborted .outOfBounds (some (wordOf op.code m)) (some p3))) ∧
        (s.mem.Valid p3 →
          out = .next { s with mem := s.mem.set p3.toNat (if rel a b then 1 else 0), head := s.nextHead op }) := by
  subst hout
  refine ⟨conclude_binary_of_bad_first, fun a ha => ⟨conclude_binary_of_bad_second ha, fun b hb => ?_⟩⟩
  refine ⟨fun hp => ?_, fun hp => ?_⟩
  · exact conclude_binary_of_bad_destination ha hb rfl hp
  · rw [← truthWord_decide]
    exact conclude_binary_of_valid ha hb rfl hp

/-- Settles O18: LT is the comparing F3 shape with the order of the integers; its opcode field 7 and its length 4 are
by computation. -/
theorem lessThanFollowsItsRule : Obligations.LessThanFollowsItsRule := by
  intro m p1 p2 p3 s
  exact ⟨encode_eq_wordOf_cons _, conclude_binary_truthWord .lt (· < ·) m p1 p2 p3 s (exec_lt m p1 p2 p3 s)⟩

/-- Settles O19: EQ is the comparing F3 shape with equality; its opcode field 8 and its length 4 are by
computation. -/
theorem equalsFollowsItsRule : Obligations.EqualsFollowsItsRule := by
  intro m p1 p2 p3 s
  exact ⟨encode_eq_wordOf_cons _, conclude_binary_truthWord .eq (· = ·) m p1 p2 p3 s (exec_eq m p1 p2 p3 s)⟩

end Sys2Proof.Machine
end

section
/-! PROOFS. The faults of the decoder and the order of all faults (spec/60_exceptions.md R91, R92, R99): the first
condition of the list that holds is the check at which the step stops. -/

namespace Sys2Proof

theorem Mode.digit_eq_zero_iff (d : Mode) : d.digit = 0 ↔ d = .position := by
  cases d <;> decide

/-- The fields of an accepted word, as `faultConditions` reads them. -/
theorem fields_of_decodeWord {w : Int} {op : Opcode} {m : Modes} (h : decodeWord w = .ok (op, m)) :
    Opcode.ofCode (w.toNat % 100) = some op ∧ digit 2 w.toNat = m.m1.digit ∧ digit 3 w.toNat = m.m2.digit := by
  obtain ⟨h0, -, hop, h1, h2, -⟩ := (eq_encodeWord_iff_digits w op m).1 (eq_encodeWord_of_decodeWord h)
  refine ⟨?_, ?_, ?_⟩
  · have hcode : w.toNat % 100 = op.code := by omega
    rw [hcode, Opcode.ofCode_code]
  · simp only [digit, Nat.reducePow]
    omega
  · simp only [digit, Nat.reducePow]
    omega

end Sys2Proof

namespace Sys2Proof.Machine

/-! ## The faults of the decoder -/

/-- R67: a word the decoder rejects ends the step in the aborted state, with that word and no address. -/
theorem step_of_decode_error {s : State} {w : Int} {e : DecodeError} (hs : s.status = .running)
    (hc : s.mem.cell s.head = some w) (hd : decodeWord w = .error e) :
    step s = .next (s.aborted (Cause.ofDecodeError e) (some w) none) := by
  have hf : fetch s = .error { word := some w, raised := { cause := Cause.ofDecodeError e, addr := none } } := by
    simp only [fetch, (memRead_ok_iff _ _ _).2 hc, hd]
  exact step_fetch_fault hs hf

/-- Settles O6: the condition of the rule is the one under which the decoder answers `unknownOpcode` (R54). -/
theorem unknownOpcodeIsRaisedAtDecode : Obligations.UnknownOpcodeIsRaisedAtDecode := by
  refine ⟨rfl, fun s w hs hc hw => ?_⟩
  obtain ⟨hopcode, -, -⟩ := decoderClassifiesEveryWord w
  exact step_of_decode_error hs hc (hopcode.2 hw)

/-- Settles O7: the condition of the rule is the one under which the decoder answers `unknownAddressingMode` (R54). -/
theorem unknownAddressingModeIsRaisedAtDecode : Obligations.UnknownAddressingModeIsRaisedAtDecode := by
  refine ⟨rfl, fun s w hs hc h0 hop hmode => ?_⟩
  obtain ⟨-, hmodes, -⟩ := decoderClassifiesEveryWord w
  exact step_of_decode_error hs hc (hmodes.2 ⟨h0, hop, hmode⟩)

/-! ## Outcomes decided by a list of conditions -/

/-- The outcome is the one the list decides: the record of the first condition that holds and nothing else changed, or
completion if none holds. The obligation says it of `step` and the whole list of R99. -/
def Reports (s : State) (outcome : Result) (cs : List (Bool × FaultRecord)) : Prop :=
  (∀ r, ((cs.find? fun c => c.1).map fun c => c.2) = some r →
    outcome = .next { s with status := .faulted, fault := some r }) ∧
  (((cs.find? fun c => c.1).map fun c => c.2) = none → ∃ t, outcome = .next t ∧ t.status ≠ .faulted)

theorem reports_nil_iff (s : State) (outcome : Result) :
    Reports s outcome [] ↔ ∃ t, outcome = .next t ∧ t.status ≠ .faulted := by
  simp [Reports]

/-- A later condition is read only when the first one is false. -/
theorem reports_cons_iff (s : State) (outcome : Result) (c : Bool) (r : FaultRecord) (cs : List (Bool × FaultRecord)) :
    Reports s outcome ((c, r) :: cs) ↔
      (c = true → outcome = .next { s with status := .faulted, fault := some r }) ∧
        (¬ c = true → Reports s outcome cs) := by
  cases c <;> simp [Reports]

section chain

variable {s : State} {outcome : Result} {c : Prop} [Decidable c] {r : FaultRecord} {cs : List (Bool × FaultRecord)}

theorem Reports.check (hfault : c → outcome = .next { s with status := .faulted, fault := some r })
    (hrest : ¬ c → Reports s outcome cs) : Reports s outcome ((decide c, r) :: cs) := by
  rw [reports_cons_iff, decide_eq_true_eq]
  exact ⟨hfault, hrest⟩

theorem Reports.skip (h : ¬ c) (hrest : Reports s outcome cs) : Reports s outcome ((decide c, r) :: cs) :=
  .check (fun hc => absurd hc h) fun _ => hrest

theorem Reports.complete {t : State} (h : outcome = .next t) (ht : t.status ≠ .faulted) : Reports s outcome [] :=
  (reports_nil_iff _ _).2 ⟨t, h, ht⟩

end chain

/-! ## The list of R99 at a word the decoder accepts -/

/-- Parameter word `i` of the instruction at the head, 0 where it is missing. -/
def State.param (s : State) (i : Nat) : Int := (s.mem.cell (s.head + i)).getD 0

/-- The value of a source, 0 where its address is invalid. -/
def sourceValue (mem : Memory) (d : Mode) (p : Int) : Int := if d = .position then (mem.cell p).getD 0 else p

theorem sourceIs_sourceValue {mem : Memory} {d : Mode} {p : Int} (h : ¬ SourceBad mem d p) :
    SourceIs mem d p (sourceValue mem d p) := by
  cases d with
  | immediate => exact .inl ⟨rfl, rfl⟩
  | position =>
    obtain ⟨v, hv⟩ := Memory.cell_of_valid (not_not.1 fun hp => h ⟨rfl, hp⟩)
    exact .inr ⟨rfl, by simp [sourceValue, hv]⟩

/-- The record R96 gives a fault raised once the instruction word `w` is known. -/
def State.faultRecord (s : State) (w : Int) (c : Cause) (addr : Option Int) : FaultRecord :=
  { cause := c, head := s.head, word := some w, addr := addr }

/-- The two instructions that check their result, and the results they reject (R81, R82, R95). -/
abbrev Overflows (c : Config) (op : Opcode) (a b : Int) : Prop :=
  op = .add ∧ ¬ c.IsWord (a + b) ∨ op = .mul ∧ ¬ c.IsWord (a * b)

/-- Level 4 of R99: the parameters in increasing order. -/
def parameterConditions (s : State) (w : Int) (op : Opcode) : List (Bool × FaultRecord) :=
  [ (decide (1 ≤ op.paramCount ∧ ¬ s.mem.Valid (s.head + 1)), s.faultRecord w .outOfBounds (some (s.head + 1))),
    (decide (2 ≤ op.paramCount ∧ ¬ s.mem.Valid (s.head + 2)), s.faultRecord w .outOfBounds (some (s.head + 2))),
    (decide (3 ≤ op.paramCount ∧ ¬ s.mem.Valid (s.head + 3)), s.faultRecord w .outOfBounds (some (s.head + 3))) ]

/-- Levels 5 to 8 of R99, of an instruction with the parameter words `p 1`, `p 2`, `p 3`. -/
def executionConditions (s : State) (w : Int) (op : Opcode) (m : Modes) (p : Nat → Int) : List (Bool × FaultRecord) :=
  [ (decide (1 ≤ op.sourceCount ∧ SourceBad s.mem m.m1 (p 1)), s.faultRecord w .outOfBounds (some (p 1))),
    (decide (2 ≤ op.sourceCount ∧ SourceBad s.mem m.m2 (p 2)), s.faultRecord w .outOfBounds (some (p 2))),
    (decide (Overflows s.cfg op (sourceValue s.mem m.m1 (p 1)) (sourceValue s.mem m.m2 (p 2))),
      s.faultRecord w .overflow none),
    (decide (op = .inp ∧ s.inp = []), s.faultRecord w .inputExhausted none),
    (decide (op.destination ≠ 0 ∧ ¬ s.mem.Valid (p op.destination)),
      s.faultRecord w .outOfBounds (some (p op.destination))) ]

/-- At an accepted word the levels after the decoder's are those of its instruction. -/
theorem faultConditions_drop_three {s : State} {w : Int} {op : Opcode} {m : Modes} (hc : s.mem.cell s.head = some w)
    (hd : decodeWord w = .ok (op, m)) :
    (faultConditions s).drop 3 = parameterConditions s w op ++ executionConditions s w op m s.param := by
  obtain ⟨hop, h1, h2⟩ := fields_of_decodeWord hd
  simp only [faultConditions, parameterConditions, executionConditions, List.drop_succ_cons, List.drop_zero,
    List.cons_append, List.nil_append, hc, Option.getD_some, hop, h1, h2, Nat.reduceAdd, Mode.digit_eq_zero_iff,
    decide_eq_true_eq, Bool.decide_and, decide_not, Bool.and_assoc]
  rfl

/-! ## The levels, each against the part of the step that checks it -/

/-- Levels 1 to 3 are the fetch of the instruction word and its decoding. -/
theorem reports_of_decode {s : State} {outcome : Result}
    (hfetch : ¬ s.mem.Valid s.head → outcome = .next (s.aborted .outOfBounds none (some s.head)))
    (herror : ∀ w e, s.mem.cell s.head = some w → decodeWord w = .error e →
      outcome = .next (s.aborted (Cause.ofDecodeError e) (some w) none))
    (hok : ∀ w op m, s.mem.cell s.head = some w → decodeWord w = .ok (op, m) →
      Reports s outcome ((faultConditions s).drop 3)) :
    Reports s outcome (faultConditions s) := by
  simp only [faultConditions, List.drop_succ_cons, List.drop_zero] at hok ⊢
  rw [reports_cons_iff, Bool.not_eq_true', decide_eq_false_iff_not]
  refine ⟨hfetch, fun hvalid => ?_⟩
  obtain ⟨w, hc⟩ := Memory.cell_of_valid (not_not.1 hvalid)
  simp only [hc, Option.getD_some] at hok ⊢
  rw [reports_cons_iff, Bool.or_eq_true, decide_eq_true_eq, Option.isNone_iff_eq_none,
    ← decodeWord_eq_unknownOpcode_iff]
  refine ⟨herror w _ hc, fun hopcode => ?_⟩
  rw [reports_cons_iff, decide_eq_true_eq, ← decodeModes_eq_none_iff]
  have hmode : decodeWord w = .error .unknownAddressingMode ↔ 100000 ≤ w ∨ decodeModes w.toNat = none := by
    rw [decodeWord_eq_unknownOpcode_iff, not_or, not_lt] at hopcode
    rw [decodeWord_eq_unknownAddressingMode_iff, and_iff_right hopcode.1, and_iff_right hopcode.2]
  rw [← hmode]
  refine ⟨herror w _ hc, fun hmodes => ?_⟩
  cases hd : decodeWord w with
  | error e =>
    cases e with
    | unknownOpcode => exact absurd hd hopcode
    | unknownAddressingMode => exact absurd hd hmodes
  | ok om =>
    obtain ⟨op, m⟩ := om
    exact hok w op m rfl hd

/-- Level 4: a parameter is missing where the word before it is not. -/
theorem step_of_missing_parameter {s : State} {w : Int} {op : Opcode} {m : Modes} {k : Nat} (hs : s.status = .running)
    (hc : s.mem.cell s.head = some w) (hd : decodeWord w = .ok (op, m)) (hk : k + 1 ≤ op.paramCount)
    (hlast : s.mem.Valid (s.head + k)) (hbad : ¬ s.mem.Valid (s.head + (k + 1 : Nat))) :
    step s = .next (s.aborted .outOfBounds (some w) (some (s.head + (k + 1 : Nat)))) := by
  obtain ⟨hmissing, -⟩ := parametersAreFetchedFirst s w op m hs hc hd
  have hhead := Memory.valid_of_cell hc
  refine hmissing (k + 1) (by omega) hk (fun j _ hj => ?_) hbad
  unfold Memory.Valid at *
  omega

/-- With all its parameters on the tape the step is the instruction's meaning; words it has no use for are not looked
at (R56). -/
theorem step_of_valid_parameters {s : State} {w : Int} {op : Opcode} {m : Modes} (hs : s.status = .running)
    (hc : s.mem.cell s.head = some w) (hd : decodeWord w = .ok (op, m))
    (hlast : s.mem.Valid (s.head + op.paramCount)) :
    step s = exec (Instr.build op m (s.param 1) (s.param 2) (s.param 3)) s := by
  obtain ⟨-, hpresent⟩ := parametersAreFetchedFirst s w op m hs hc hd
  have hhead := Memory.valid_of_cell hc
  rw [hpresent ((List.range op.paramCount).map fun k => s.param (k + 1)) (by simp) fun k hk => ?_]
  · cases op <;> rfl
  · have hvalid : s.mem.Valid (s.head + 1 + k) := by
      unfold Memory.Valid at *
      omega
    obtain ⟨v, hv⟩ := Memory.cell_of_valid hvalid
    have haddr : s.head + (k + 1 : Nat) = s.head + 1 + k := by omega
    have hparam : s.param (k + 1) = v := by rw [State.param, haddr, hv, Option.getD_some]
    simp [hk, hv, hparam]

section execution

variable {s : State} {op : Opcode} {m : Modes} {p : Nat → Int}

/-- The checks of the F3 shape: its sources, its result, its destination. -/
theorem binary_reports {f : Int → Int → Except Raise Int} (hs : s.status ≠ .faulted) (hsrc : op.sourceCount = 2)
    (hdst : op.destination = 3)
    (hover : ∀ a b, Overflows s.cfg op a b → f a b = .error { cause := .overflow, addr := none })
    (hresult : ∀ a b, ¬ Overflows s.cfg op a b → ∃ r, f a b = .ok r) :
    Reports s (conclude op m s (binary op f m (p 1) (p 2) (p 3) s))
      (executionConditions s (wordOf op.code m) op m p) := by
  have hinp : op ≠ .inp := by
    rintro rfl
    cases hsrc
  rw [executionConditions, hsrc, hdst]
  refine .check (fun ⟨_, h⟩ => conclude_binary_of_bad_first h) fun h1 => ?_
  have ha := sourceIs_sourceValue fun h => h1 ⟨by decide, h⟩
  refine .check (fun ⟨_, h⟩ => conclude_binary_of_bad_second ha h) fun h2 => ?_
  have hb := sourceIs_sourceValue fun h => h2 ⟨by decide, h⟩
  refine .check (fun h => conclude_binary_of_compute_error ha hb (hover _ _ h)) fun h => .skip (by simp [hinp]) ?_
  obtain ⟨r, hr⟩ := hresult _ _ h
  refine .check (fun ⟨_, h⟩ => conclude_binary_of_bad_destination ha hb hr h) fun h3 => ?_
  have hvalid := not_not.1 fun h => h3 ⟨by decide, h⟩
  exact .complete (conclude_binary_of_valid ha hb hr hvalid) hs

/-- The checks of ADD and MUL: the result is the exact `g a b`, which has to be a Word. -/
theorem binary_checkRange_reports {g : Int → Int → Int} (hs : s.status ≠ .faulted) (hsrc : op.sourceCount = 2)
    (hdst : op.destination = 3) (hover : ∀ a b, Overflows s.cfg op a b ↔ ¬ s.cfg.IsWord (g a b)) :
    Reports s (conclude op m s (binary op (fun a b => checkRange s.cfg (g a b)) m (p 1) (p 2) (p 3) s))
      (executionConditions s (wordOf op.code m) op m p) := by
  refine binary_reports hs hsrc hdst (fun a b h => ?_) fun a b h => ⟨g a b, ?_⟩
  · exact (checkRange_error_iff _ _ _).2 ⟨(hover a b).1 h, rfl⟩
  · exact (checkRange_ok_iff _ _ _).2 ⟨not_not.1 (mt (hover a b).2 h), rfl⟩

/-- The checks of the F2 shape: both operands, and no more. -/
theorem branch_reports {taken : Int → Bool} (hs : s.status ≠ .faulted) (hop : op = .jt ∨ op = .jf) :
    Reports s (conclude op m s (branch op taken m (p 1) (p 2) s))
      (executionConditions s (wordOf op.code m) op m p) := by
  have hfields : op.sourceCount = 2 ∧ op.destination = 0 ∧ op ≠ .add ∧ op ≠ .mul ∧ op ≠ .inp := by
    rcases hop with rfl | rfl <;> decide
  obtain ⟨hsrc, hdst, hadd, hmul, hinp⟩ := hfields
  refine .check (fun ⟨_, h⟩ => conclude_branch_of_bad_condition h) fun h1 => ?_
  have hc := sourceIs_sourceValue fun h => h1 ⟨by omega, h⟩
  refine .check (fun ⟨_, h⟩ => conclude_branch_of_bad_target hc h) fun h2 => ?_
  have ht := sourceIs_sourceValue fun h => h2 ⟨by omega, h⟩
  refine .skip (by simp [hadd, hmul]) (.skip (by simp [hinp]) (.skip (by simp [hdst]) ?_))
  exact .complete (conclude_branch_of_sources op taken hc ht) hs

theorem exec_inp_reports (hs : s.status ≠ .faulted) :
    Reports s (exec (.inp m (p 1)) s) (executionConditions s (wordOf 3 m) .inp m p) := by
  refine .skip (by simp [Opcode.sourceCount]) (.skip (by simp [Opcode.sourceCount]) (.skip (by simp) ?_))
  refine .check (fun ⟨_, h⟩ => exec_inp_of_empty h) fun h => ?_
  have hqueue := (List.dropLast_append_getLast fun hempty => h ⟨rfl, hempty⟩).symm
  refine .check (fun ⟨_, h⟩ => exec_inp_of_bad_destination hqueue h) fun h => ?_
  have hvalid := not_not.1 fun hbad => h ⟨by decide, hbad⟩
  exact .complete (exec_inp_of_valid hqueue hvalid) hs

theorem exec_out_reports (hs : s.status ≠ .faulted) :
    Reports s (exec (.out m (p 1)) s) (executionConditions s (wordOf 4 m) .out m p) := by
  refine .check (fun ⟨_, h⟩ => exec_out_of_bad_source h) fun h => ?_
  have hsource := sourceIs_sourceValue fun hbad => h ⟨by decide, hbad⟩
  refine .skip (by simp [Opcode.sourceCount]) (.skip (by simp) (.skip (by simp) ?_))
  exact .skip (by simp [Opcode.destination]) (.complete (exec_out_of_source hsource) hs)

/-- HLT has nothing to check. -/
theorem exec_hlt_reports : Reports s (exec (.hlt m) s) (executionConditions s (wordOf 99 m) .hlt m p) := by
  refine .skip (by simp [Opcode.sourceCount]) (.skip (by simp [Opcode.sourceCount]) (.skip (by simp) ?_))
  exact .skip (by simp) (.skip (by simp [Opcode.destination]) (.complete rfl nofun))

end execution

/-- Levels 5 to 8 are the checks of the instruction's meaning. -/
theorem exec_reports {s : State} (hs : s.status ≠ .faulted) (op : Opcode) (m : Modes) (p : Nat → Int) :
    Reports s (exec (Instr.build op m (p 1) (p 2) (p 3)) s) (executionConditions s (wordOf op.code m) op m p) := by
  cases op with
  | add => exact binary_checkRange_reports (g := (· + ·)) hs rfl rfl fun a b => by simp [Overflows]
  | mul => exact binary_checkRange_reports (g := (· * ·)) hs rfl rfl fun a b => by simp [Overflows]
  | lt => exact binary_reports hs rfl rfl (fun a b h => by simp [Overflows] at h) fun a b _ => ⟨_, rfl⟩
  | eq => exact binary_reports hs rfl rfl (fun a b h => by simp [Overflows] at h) fun a b _ => ⟨_, rfl⟩
  | jt => exact branch_reports hs (.inl rfl)
  | jf => exact branch_reports hs (.inr rfl)
  | inp => exact exec_inp_reports hs
  | out => exact exec_out_reports hs
  | hlt => exact exec_hlt_reports

/-- Levels 4 to 8: the parameter fetch, then the instruction. -/
theorem step_reports_of_decoded {s : State} {w : Int} {op : Opcode} {m : Modes} (hs : s.status = .running)
    (hc : s.mem.cell s.head = some w) (hd : decodeWord w = .ok (op, m)) :
    Reports s (step s) ((faultConditions s).drop 3) := by
  have hhead := Memory.valid_of_cell hc
  rw [faultConditions_drop_three hc hd]
  refine .check (fun ⟨hn, hbad⟩ => ?_) fun h1 => .check (fun ⟨hn, hbad⟩ => ?_) fun h2 =>
    .check (fun ⟨hn, hbad⟩ => ?_) fun h3 => ?_
  · exact step_of_missing_parameter (k := 0) hs hc hd hn (by simpa using hhead) hbad
  · have hlast : s.mem.Valid (s.head + 1) := not_not.1 fun h => h1 ⟨by omega, h⟩
    exact step_of_missing_parameter (k := 1) hs hc hd hn hlast hbad
  · have hlast : s.mem.Valid (s.head + 2) := not_not.1 fun h => h2 ⟨by omega, h⟩
    exact step_of_missing_parameter (k := 2) hs hc hd hn hlast hbad
  · have hcount : op.paramCount ≤ 3 := by cases op <;> decide
    have hlast : s.mem.Valid (s.head + op.paramCount) := by
      unfold Memory.Valid at *
      omega
    have hw : w = wordOf op.code m := by rw [eq_encodeWord_of_decodeWord hd, encodeWord_eq_wordOf]
    rw [step_of_valid_parameters hs hc hd hlast, hw]
    exact exec_reports (by simp [hs]) op m s.param

/-- Settles O28: each level of the list is one check of the step, in the order the step makes them; `Reports` of `step`
and the whole list is the statement by definition. -/
theorem firstFaultOfTheOrderIsReported : Obligations.FirstFaultOfTheOrderIsReported := by
  intro s hs
  have hreports : Reports s (step s) (faultConditions s) := by
    refine reports_of_decode (fetchOutsideTheTapeFaults s hs) (fun w e hc hd => ?_) fun w op m hc hd => ?_
    · exact step_of_decode_error hs hc hd
    · exact step_reports_of_decoded hs hc hd
  exact hreports

end Sys2Proof.Machine
end

section
/-! PROOFS. The decoder and the encoder undo each other (spec/30_encoding.md R48, R51, R56, R61), and the step runs what
the words at the head decode to. -/

namespace Sys2Proof

/-- When the decoder accepts: a legal first word with its parameters after it (R51, R56). -/
theorem decode_cons_eq_ok_iff (w : Int) (ws rest : List Int) (i : Instr) :
    decode (w :: ws) = .ok (i, rest) ↔
      ∃ op m, decodeWord w = .ok (op, m) ∧ op.paramCount ≤ ws.length ∧
        i = Instr.ofParams op m (ws.take op.paramCount) ∧ rest = ws.drop op.paramCount := by
  unfold decode
  cases hd : decodeWord w with
  | error e => simp [hd]
  | ok om =>
    obtain ⟨op, m⟩ := om
    by_cases hlen : op.paramCount ≤ ws.length
    · simp [hd, hlen, hlen.not_gt, eq_comm (a := i), eq_comm (a := rest)]
    · simp [hd, hlen, not_le.1 hlen]

/-- Settles O2: the word decodes to opcode and digits, and exactly the parameters are split off after it. -/
theorem decodeOfEncodeGivesTheInstruction : Obligations.DecodeOfEncodeGivesTheInstruction := by
  intro i rest
  have hlen := i.params_length
  refine (decode_cons_eq_ok_iff i.word (i.params ++ rest) rest i).2 ⟨i.opcode, i.modes, ?_, ?_, ?_, ?_⟩
  · exact decodeWord_encodeWord i.opcode i.modes
  · simp [hlen]
  · rw [← hlen, List.take_left, Instr.ofParams_params]
  · rw [← hlen, List.drop_left]

/-- Settles O3: an accepted first word is the one the encoder writes, and the words split off are the parameters. -/
theorem acceptedWordsAreTheEncoding : Obligations.AcceptedWordsAreTheEncoding := by
  intro ws rest i h
  cases ws with
  | nil => cases h
  | cons w ws =>
    obtain ⟨op, m, hd, hlen, rfl, rfl⟩ := (decode_cons_eq_ok_iff _ _ _ _).1 h
    have hparams := Instr.params_ofParams op m (ws.take op.paramCount) (by simpa using hlen)
    rw [encode, Instr.word, Instr.opcode_ofParams, Instr.modes_ofParams, hparams, eq_encodeWord_of_decodeWord hd,
      List.cons_append, List.take_append_drop]

/-- Words after an accepted list change nothing but the rest (R63). -/
theorem decode_append {ws rest : List Int} {i : Instr} (h : decode ws = .ok (i, rest)) (more : List Int) :
    decode (ws ++ more) = .ok (i, rest ++ more) := by
  rw [acceptedWordsAreTheEncoding ws rest i h, List.append_assoc]
  exact decodeOfEncodeGivesTheInstruction i (rest ++ more)

/-- Settles O1: every clause is about given words, on which the decoder runs. -/
theorem specWordsDecodeAsListed : Obligations.SpecWordsDecodeAsListed := by
  exact ⟨rfl, rfl, rfl, rfl, rfl, rfl, rfl, rfl, rfl, rfl, rfl, rfl, rfl⟩

end Sys2Proof

namespace Sys2Proof.Machine

/-- Settles O9: the words at the head are what the fetch half reads. -/
theorem stepRunsTheDecodedInstruction : Obligations.StepRunsTheDecodedInstruction := by
  intro s i rest hs h0 hd
  exact step_running hs ((fetch_ok_iff s i).2 ⟨h0, rest, hd⟩)

/-- The placed words stand at their address, before the old tape's (log entry 5). -/
theorem overlay_drop (m : Memory) (a : Nat) (ws : List Int) :
    (overlay m a ws).drop a = ws ++ m.drop (a + ws.length) := by
  have hlen : ((m ++ List.replicate (a - m.length) 0).take a).length = a := by
    simp
    omega
  rw [overlay, List.append_assoc, List.drop_left' hlen]

theorem decode_of_decodeTableWord {nbits w : Nat} {i : Instr} (h : decodeTableWord nbits w = some i) :
    ∃ rest, decode (tableWords nbits w) = .ok (i, rest) := by
  unfold decodeTableWord at h
  split at h
  · cases h
    exact ⟨_, ‹_›⟩
  · cases h

/-- Settles O10: the placed words are followed by those of the old tape, which decoding does not look at. -/
theorem placedInstructionIsTheNextToRun : Obligations.PlacedInstructionIsTheNextToRun := by
  intro s nbits w i h
  obtain ⟨rest, hd⟩ := decode_of_decodeTableWord h
  have hwords := decode_append hd (s.mem.drop (s.head.toNat + (tableWords nbits w).length))
  rw [← overlay_drop] at hwords
  exact stepRunsTheDecodedInstruction (s.withFetchWord nbits w) i _ rfl (by simp) hwords

end Sys2Proof.Machine
end

section
/-! PROOFS. HLT, ADD to its own source, the digits without effect (spec/45_halt.md, spec/40_engine_cycle.md R80,
spec/30_encoding.md R57, R59), and what each instruction leaves unchanged (R71, R74). -/

namespace Sys2Proof.Machine

/-- Settles O20: HLT has no check, and it writes the status and the head. -/
theorem haltCompletesEverywhere : Obligations.HaltCompletesEverywhere := by
  intro m s
  exact ⟨encode_eq_wordOf_cons (.hlt m), { s with status := .halted, head := s.nextHead .hlt }, rfl, rfl, rfl, rfl, rfl,
    rfl, rfl⟩

section arithmetic

variable {m : Modes} {p1 p2 p3 a b r : Int} {s : State}

/-- ADD with every check of R81 passed. -/
theorem exec_add_of_sources (ha : SourceIs s.mem m.m1 p1 a) (hb : SourceIs s.mem m.m2 p2 b) (hr : a + b = r)
    (hw : s.cfg.IsWord r) (hp : s.mem.Valid p3) :
    exec (.add m p1 p2 p3) s = .next { s with mem := s.mem.set p3.toNat r, head := s.head + 4 } := by
  subst hr
  exact conclude_binary_of_valid ha hb ((checkRange_ok_iff _ _ _).2 ⟨hw, rfl⟩) hp

/-- MUL with every check of R82 passed. -/
theorem exec_mul_of_sources (ha : SourceIs s.mem m.m1 p1 a) (hb : SourceIs s.mem m.m2 p2 b) (hr : a * b = r)
    (hw : s.cfg.IsWord r) (hp : s.mem.Valid p3) :
    exec (.mul m p1 p2 p3) s = .next { s with mem := s.mem.set p3.toNat r, head := s.head + 4 } := by
  subst hr
  exact conclude_binary_of_valid ha hb ((checkRange_ok_iff _ _ _).2 ⟨hw, rfl⟩) hp

end arithmetic

/-- Settles O21: a cell that can be read can be written. -/
theorem sourceMayBeTheDestination : Obligations.SourceMayBeTheDestination := by
  intro m p v s h1 h2 hc hw
  exact exec_add_of_sources (.inr ⟨h1, hc⟩) (.inr ⟨h2, hc⟩) (two_mul v).symm hw (Memory.valid_of_cell hc)

/-! ## Digits without effect -/

section digits

variable {op : Opcode} {m m' : Modes} {p1 p2 p3 : Int} {s t : State} {x : Except Raise State}

/-- The end of an instruction reads the mode digits only to record a fault. -/
theorem conclude_of_other_digits (ht : t.status ≠ .faulted) (h : conclude op m s x = .next t) :
    conclude op m' s x = .next t := by
  rcases (conclude_next_iff _ _ _ _ _).1 h with hx | ⟨r, -, rfl⟩
  · exact (conclude_next_iff _ _ _ _ _).2 (.inl hx)
  · exact absurd rfl ht

theorem binary_of_other_digits {f : Int → Int → Except Raise Int} (h1 : m'.m1 = m.m1) (h2 : m'.m2 = m.m2) :
    binary op f m' p1 p2 p3 s = binary op f m p1 p2 p3 s := by
  simp only [binary, h1, h2]

theorem branch_of_other_digits {taken : Int → Bool} (h1 : m'.m1 = m.m1) (h2 : m'.m2 = m.m2) :
    branch op taken m' p1 p2 s = branch op taken m p1 p2 s := by
  simp only [branch, h1, h2]

theorem conclude_binary_of_other_digits {f : Int → Int → Except Raise Int} (h1 : m'.m1 = m.m1) (h2 : m'.m2 = m.m2)
    (ht : t.status ≠ .faulted) (h : conclude op m s (binary op f m p1 p2 p3 s) = .next t) :
    conclude op m' s (binary op f m' p1 p2 p3 s) = .next t := by
  rw [binary_of_other_digits h1 h2]
  exact conclude_of_other_digits ht h

theorem conclude_branch_of_other_digits {taken : Int → Bool} (h1 : m'.m1 = m.m1) (h2 : m'.m2 = m.m2)
    (ht : t.status ≠ .faulted) (h : conclude op m s (branch op taken m p1 p2 s) = .next t) :
    conclude op m' s (branch op taken m' p1 p2 s) = .next t := by
  rw [branch_of_other_digits h1 h2]
  exact conclude_of_other_digits ht h

end digits

/-- Settles O22: the shapes read the digits of their sources only, the end of an instruction reads them for a fault's
record, and HLT, which has no fault, not at all. -/
theorem unusedModeDigitsHaveNoEffect : Obligations.UnusedModeDigitsHaveNoEffect := by
  intro m m' p1 p2 p3 s t ht
  refine ⟨fun h1 h2 => ⟨?_, ?_, ?_, ?_, ?_, ?_⟩, fun h1 => ?_, ?_, ?_⟩
  · exact conclude_binary_of_other_digits (op := .add) h1 h2 ht
  · exact conclude_binary_of_other_digits (op := .mul) h1 h2 ht
  · exact conclude_binary_of_other_digits (op := .lt) h1 h2 ht
  · exact conclude_binary_of_other_digits (op := .eq) h1 h2 ht
  · exact conclude_branch_of_other_digits (op := .jt) h1 h2 ht
  · exact conclude_branch_of_other_digits (op := .jf) h1 h2 ht
  · simp only [exec, execOut, h1]
    exact conclude_of_other_digits ht
  · exact conclude_of_other_digits (op := .inp) ht
  · exact id

/-! ## Frames -/

section frames

variable {i : Instr} {m : Modes} {p1 p2 p3 : Int} {s t : State}

/-- A fault commits nothing (R74). -/
theorem Faults.frame (h : Faults i s t) :
    t.mem = s.mem ∧ t.head = s.head ∧ t.inp = s.inp ∧ t.out = s.out ∧ t.cfg = s.cfg := by
  obtain ⟨r, rfl⟩ := h
  exact ⟨rfl, rfl, rfl, rfl, rfl⟩

/-- Only a fault takes a machine to Faulted. -/
theorem exec_next_faulted (h : exec i s = .next t) (hs : s.status ≠ .faulted) (ht : t.status = .faulted) :
    Faults i s t := by
  rcases exec_next_cases h with hf | hc
  · exact hf
  · exact absurd ht (hc.status_ne_faulted hs)

theorem exec_next_completed (h : exec i s = .next t) (ht : t.status ≠ .faulted) : Completed i s t := by
  rcases exec_next_cases h with hf | hc
  · exact absurd hf.status_eq ht
  · exact hc

/-- No instruction changes the width. -/
theorem exec_next_cfg (h : exec i s = .next t) : t.cfg = s.cfg := by
  rcases exec_next_cases h with ⟨r, rfl⟩ | hc
  · rfl
  · exact hc.cfg

/-- One cell, the head and nothing else. -/
def StoresAt (p : Int) (s t : State) : Prop :=
  ∃ v head, s.mem.Valid p ∧ t = { s with mem := s.mem.set p.toNat v, head := head }

theorem exec_three_operand_next (hi : i ∈ [Instr.add m p1 p2 p3, .mul m p1 p2 p3, .lt m p1 p2 p3, .eq m p1 p2 p3])
    (h : exec i s = .next t) : Faults i s t ∨ StoresAt p3 s t := by
  simp only [List.mem_cons, List.not_mem_nil, or_false] at hi
  rcases hi with rfl | rfl | rfl | rfl
  · exact (execAdd_next h).imp_right fun ⟨_, _, _, _, _, hv, ht⟩ => ⟨_, _, hv, ht⟩
  · exact (execMul_next h).imp_right fun ⟨_, _, _, _, _, hv, ht⟩ => ⟨_, _, hv, ht⟩
  · exact (execLt_next h).imp_right fun ⟨_, _, _, _, hv, ht⟩ => ⟨_, _, hv, ht⟩
  · exact (execEq_next h).imp_right fun ⟨_, _, _, _, hv, ht⟩ => ⟨_, _, hv, ht⟩

theorem exec_non_storing_next (hi : i ∈ [Instr.out m p1, .jt m p1 p2, .jf m p1 p2, .hlt m])
    (h : exec i s = .next t) : t.mem = s.mem ∧ t.inp = s.inp := by
  simp only [List.mem_cons, List.not_mem_nil, or_false] at hi
  rcases hi with rfl | rfl | rfl | rfl
  · rcases execOut_next h with ⟨_, rfl⟩ | ⟨_, -, rfl⟩ <;> exact ⟨rfl, rfl⟩
  · rcases execJt_next h with ⟨_, rfl⟩ | ⟨_, _, -, -, rfl⟩ <;> exact ⟨rfl, rfl⟩
  · rcases execJf_next h with ⟨_, rfl⟩ | ⟨_, _, -, -, rfl⟩ <;> exact ⟨rfl, rfl⟩
  · rw [execHlt_next h]
    exact ⟨rfl, rfl⟩

theorem exec_jump_or_halt_out (hi : i ∈ [Instr.jt m p1 p2, .jf m p1 p2, .hlt m]) (h : exec i s = .next t) :
    t.out = s.out := by
  simp only [List.mem_cons, List.not_mem_nil, or_false] at hi
  rcases hi with rfl | rfl | rfl
  · rcases execJt_next h with ⟨_, rfl⟩ | ⟨_, _, -, -, rfl⟩ <;> rfl
  · rcases execJf_next h with ⟨_, rfl⟩ | ⟨_, _, -, -, rfl⟩ <;> rfl
  · rw [execHlt_next h]

end frames

/-- Settles O23: the outcome is the fault, which commits nothing, or the store of one cell. -/
theorem threeOperandFrame : Obligations.ThreeOperandFrame := by
  intro i m p1 p2 p3 s t hi h
  rcases exec_three_operand_next hi h with hf | ⟨v, head, hp, rfl⟩
  · obtain ⟨hmem, hhead, hinp, hout, hcfg⟩ := hf.frame
    rw [hmem]
    exact ⟨fun _ _ => rfl, rfl, hinp, hout, hcfg, fun ht => absurd hf.status_eq ht, fun _ _ => ⟨rfl, hhead⟩⟩
  · exact ⟨fun a ha => Memory.cell_set_other v hp.1 ha, List.length_set, rfl, rfl, rfl, fun _ => ⟨rfl, rfl⟩,
      fun hs ht => absurd ht hs⟩

/-- Settles O24: the outcome is the fault, which commits nothing, or the store of the last input. -/
theorem inputFrame : Obligations.InputFrame := by
  intro m p1 s t h
  rcases execInp_next h with hf | ⟨rest, v, hq, hp, rfl⟩
  · obtain ⟨hmem, hhead, hinp, hout, hcfg⟩ := hf.frame
    rw [hmem, hinp]
    exact ⟨fun _ _ => rfl, rfl, .inl rfl, hout, hcfg, fun ht => absurd hf.status_eq ht, fun _ _ => ⟨rfl, rfl, hhead⟩⟩
  · have hrest : rest = s.inp.dropLast := by rw [hq, List.dropLast_concat]
    exact ⟨fun a ha => Memory.cell_set_other v hp.1 ha, List.length_set, .inr hrest, rfl, rfl,
      fun _ => ⟨rfl, rfl, hrest⟩, fun hs ht => absurd ht hs⟩

/-- Settles O25: tape and inputs by the outcomes of the four, and the rest by what every fault and every completed
instruction keeps. -/
theorem nonStoringFrame : Obligations.NonStoringFrame := by
  intro m p1 p2 s t
  refine ⟨fun i hi h => ?_, fun i hi h => exec_jump_or_halt_out hi h, fun i hi h ht => ?_⟩
  · obtain ⟨hmem, hinp⟩ := exec_non_storing_next hi h
    rw [hmem]
    refine ⟨fun _ => rfl, rfl, hinp, exec_next_cfg h, fun ht => (exec_next_completed h ht).fault, fun hs ht => ?_⟩
    obtain ⟨-, hhead, -, hout, -⟩ := (exec_next_faulted h hs ht).frame
    exact ⟨hout, hhead⟩
  · rcases (exec_next_completed h ht).status with ⟨⟨_, rfl⟩, -⟩ | ⟨-, hst⟩
    · simp at hi
    · exact hst

end Sys2Proof.Machine
end

section
/-! PROOFS. What a faulting step records (spec/60_exceptions.md R96), the invariant of the run state (spec/10_state.md
R13, R15), and the step that halts (spec/45_halt.md R89). -/

namespace Sys2Proof.Machine

/-! ## The records of R96 -/

/-- R96 in two rows: `OutOfBounds`, and every other cause. -/
theorem FaultRecord.fits_iff (r : FaultRecord) (m : Memory) :
    r.Fits m ↔ r.word = m.cell r.head ∧
      (r.cause = .outOfBounds → ∃ a, r.addr = some a ∧ ¬ m.Valid a ∧ (r.word = none → a = r.head)) ∧
      (r.cause ≠ .outOfBounds → r.addr = none ∧ r.word ≠ none) := by
  unfold FaultRecord.Fits
  cases r.cause <;> simp

section records

variable {m : Memory} {head w a : Int} {c : Cause}

theorem fits_of_failed_fetch (h : ¬ m.Valid head) :
    FaultRecord.Fits { cause := .outOfBounds, head := head, word := none, addr := some head } m :=
  ⟨((m.cell_eq_none_iff head).2 h).symm, head, rfl, h, fun _ => rfl⟩

theorem fits_of_outside (hw : m.cell head = some w) (h : ¬ m.Valid a) :
    FaultRecord.Fits { cause := .outOfBounds, head := head, word := some w, addr := some a } m :=
  ⟨hw.symm, a, rfl, h, nofun⟩

theorem fits_of_other_cause (hw : m.cell head = some w) (h : c ≠ .outOfBounds) :
    FaultRecord.Fits { cause := c, head := head, word := some w, addr := none } m :=
  (FaultRecord.fits_iff _ _).2 ⟨hw.symm, fun hc => absurd hc h, fun _ => ⟨rfl, nofun⟩⟩

end records

/-- With the instruction word fetched, every condition of R99 that holds has a record that fits. -/
theorem faultConditions_fit {s : State} {w : Int} (hw : s.mem.cell s.head = some w) :
    ∀ c ∈ faultConditions s, c.1 = true → c.2.head = s.head ∧ c.2.Fits s.mem := by
  simp only [faultConditions, hw, Option.getD_some, List.forall_mem_cons, Bool.and_eq_true, Bool.not_eq_true',
    decide_eq_false_iff_not, true_and]
  have hother {c : Cause} (hc : c ≠ .outOfBounds) := fits_of_other_cause hw hc
  have houtside {a : Int} (ha : ¬ s.mem.Valid a) := fits_of_outside hw ha
  exact ⟨fun h => absurd (Memory.valid_of_cell hw) h,
    fun _ => hother nofun, fun _ => hother nofun,
    fun h => houtside h.2, fun h => houtside h.2, fun h => houtside h.2,
    fun h => houtside h.2, fun h => houtside h.2,
    fun _ => hother nofun, fun _ => hother nofun, fun h => houtside h.2, nofun⟩

theorem firstFault_fits {s : State} {r : FaultRecord} (h : firstFault s = some r) : r.head = s.head ∧ r.Fits s.mem := by
  by_cases hv : s.mem.Valid s.head
  · obtain ⟨w, hw⟩ := Memory.cell_of_valid hv
    obtain ⟨c, hfind, rfl⟩ := Option.map_eq_some_iff.1 h
    exact faultConditions_fit hw c (List.mem_of_find?_eq_some hfind) (List.find?_some hfind)
  · have hfetch : firstFault s = some { cause := .outOfBounds, head := s.head, word := none, addr := some s.head } := by
      simp only [firstFault, faultConditions, hv, decide_false, Bool.not_false, List.find?_cons_of_pos, Option.map_some]
    cases h.symm.trans hfetch
    exact ⟨rfl, fits_of_failed_fetch hv⟩

/-- The record a faulting step leaves is the one the list of R99 decides (O28), so it fits. -/
theorem record_of_faulting_step {s t : State} {r : FaultRecord} (h : step s = .next t) (ht : t.status = .faulted)
    (hr : t.fault = some r) : r.head = s.head ∧ r.Fits s.mem := by
  obtain ⟨hfault, hcomplete⟩ := firstFaultOfTheOrderIsReported s (step_next h).1
  cases hf : firstFault s with
  | none =>
    obtain ⟨t', ht', hok⟩ := hcomplete hf
    cases h.symm.trans ht'
    exact absurd ht hok
  | some r' =>
    cases h.symm.trans (hfault r' hf)
    cases hr
    exact firstFault_fits hf

/-- Settles O27: the rows of R96 are those of a record that fits the tape. -/
theorem faultRecordFollowsItsTable : Obligations.FaultRecordFollowsItsTable := by
  intro s t r h ht hr
  obtain ⟨hhead, hfits⟩ := record_of_faulting_step h ht hr
  obtain ⟨hword, houtside, hother⟩ := (r.fits_iff s.mem).1 hfits
  rw [hhead] at hword
  refine ⟨hhead, hword, fun hc hnone => ?_, fun hc _ => ?_, fun hc => (hother hc).symm⟩
  · obtain ⟨a, ha, -, hfetch⟩ := houtside hc
    rw [ha, hfetch hnone, hhead]
  · obtain ⟨a, ha, hbad, -⟩ := houtside hc
    exact ⟨a, ha, hbad⟩

/-! ## The invariant -/

/-- A completed instruction keeps the invariant; what it writes or outputs is a Word if its parameters are. -/
theorem Completed.inv {i : Instr} {s t : State} (h : Completed i s t) (hs : s.status = .running) (hinv : s.Inv)
    (hi : ∀ p ∈ i.params, s.cfg.IsWord p) : t.Inv := by
  have hok : t.status ≠ .faulted := h.status_ne_faulted (by simp [hs])
  refine ⟨?_, ?_, ?_, ?_, fun _ => ?_, fun ht => absurd ht hok⟩
  · rw [h.cfg]
    exact hinv.legal
  · rw [h.cfg]
    rcases h.mem with hm | ⟨p, v, -, hm, hv⟩
    · rw [hm]
      exact hinv.mem
    · rw [hm]
      intro u hu
      rcases List.mem_or_eq_of_mem_set hu with hu | rfl
      · exact hinv.mem u hu
      · exact hv hinv.legal hinv.mem hinv.inp
  · rw [h.cfg]
    rcases h.inp with hq | ⟨-, hq⟩
    · rw [hq]
      exact hinv.inp
    · rw [hq]
      exact fun u hu => hinv.inp u (List.mem_of_mem_dropLast hu)
  · rw [h.cfg]
    rcases h.out with ho | ⟨v, ho, hv⟩
    · rw [ho]
      exact hinv.out
    · rw [ho]
      exact List.forall_mem_append.2 ⟨hinv.out, List.forall_mem_singleton.2 (hv hi hinv.mem)⟩
  · rw [h.fault]
    exact hinv.noFault (by simp [hs])

/-- Settles O36: a fault changes nothing but status and record, and the record fits; everything else is a completed
instruction whose parameters were read from the tape. -/
theorem stepKeepsInvariant : Obligations.StepKeepsInvariant := by
  intro s t hinv h
  by_cases ht : t.status = .faulted
  · obtain ⟨r, -, rfl⟩ := faultingStepCommitsNothing s t h ht
    obtain ⟨hhead, hfits⟩ := record_of_faulting_step h ht rfl
    exact ⟨hinv.legal, hinv.mem, hinv.inp, hinv.out, fun hn => absurd rfl hn, fun _ => ⟨r, rfl, hhead, hfits⟩⟩
  · obtain ⟨i, hf, he⟩ := step_next_not_faulted h ht
    exact (exec_next_completed he ht).inv (step_next h).1 hinv fun p hp => hinv.mem p ((fetch_words hf).2 p hp)

theorem State.load_inv {c : Config} {image inputs : List Int} (hc : c.Legal) (hmem : ∀ v ∈ image, c.IsWord v)
    (hinp : ∀ v ∈ inputs, c.IsWord v) : (State.load c image inputs).Inv :=
  ⟨hc, hmem, hinp, by simp, fun _ => rfl, nofun⟩

/-- Settles O35: reset is a LOAD with nothing to check, and 64 bits are enough. -/
theorem invariantHoldsAtReset : Obligations.InvariantHoldsAtReset :=
  State.load_inv (by decide) (by simp) (by simp)

/-- LOAD is accepted just for Words (R112), and then gives the state of R28. -/
theorem boot_next_iff (c : Config) (image inputs : List Int) (s : State) :
    boot c image inputs = .next s ↔
      (∀ v ∈ image, c.IsWord v) ∧ (∀ v ∈ inputs, c.IsWord v) ∧ s = State.load c image inputs := by
  unfold boot
  split
  · rename_i h
    simp only [Host.Outcome.next.injEq, eq_comm (a := s)]
    exact ⟨fun hs => ⟨h.1, h.2, hs⟩, fun hs => hs.2.2⟩
  · rename_i h
    exact ⟨nofun, fun hs => absurd ⟨hs.1, hs.2.1⟩ h⟩

/-- Settles O37: an accepted LOAD checked its values. -/
theorem acceptedLoadMeetsInvariant : Obligations.AcceptedLoadMeetsInvariant := by
  intro c image inputs s hc h
  obtain ⟨hmem, hinp, rfl⟩ := (boot_next_iff _ _ _ _).1 h
  exact State.load_inv hc hmem hinp

/-! ## Halting, jumping away, and writing the next instruction -/

/-- Settles O30: of the completed instructions HLT alone changes the status. -/
theorem onlyHaltReachesHalted : Obligations.OnlyHaltReachesHalted := by
  intro s t h ht
  have hok : t.status ≠ .faulted := by simp [ht]
  obtain ⟨i, hf, he⟩ := step_next_not_faulted h hok
  obtain ⟨h0, rest, hd⟩ := (fetch_ok_iff s i).1 hf
  rcases (exec_next_completed he hok).status with ⟨⟨m, rfl⟩, -⟩ | ⟨-, hst⟩
  · exact ⟨h0, m, rest, hd⟩
  · rw [ht, (step_next h).1] at hst
    cases hst

/-- Settles O32: the jump does not look at its target; the fetch does. -/
theorem jumpOutsideTheTapeFaultsAtTheNextFetch : Obligations.JumpOutsideTheTapeFaultsAtTheNextFetch := by
  intro m p1 p2 c a s hs hc ha hbad
  exact ⟨exec_jt_taken hc ha, exec_jf_taken hc ha, fetchOutsideTheTapeFaults { s with head := a } hs hbad⟩

/-- A step at an HLT word halts. -/
theorem step_of_hlt_word {s : State} {w : Int} {m : Modes} (hs : s.status = .running)
    (hc : s.mem.cell s.head = some w) (hd : decodeWord w = .ok (.hlt, m)) :
    ∃ t, step s = .next t ∧ t.status = .halted := by
  have hf : fetch s = .ok (Instr.ofParams .hlt m []) := fetch_of_params_ok hc hd rfl
  exact ⟨_, step_running hs hf, rfl⟩

/-- Settles O34: the rule of ADD gives the next state, and the fetch reads the sum in its cell. -/
theorem writeIsSeenByTheNextFetch : Obligations.WriteIsSeenByTheNextFetch := by
  intro s m p1 p2 a b hs ha hb hw hp
  have hcell := Memory.cell_set_same (a + b) hp
  refine ⟨_, exec_add_of_sources ha hb rfl hw hp, rfl, hcell, fun hd => ?_, fun m' hd => ?_⟩
  · refine step_of_decode_error ?_ hcell hd
    exact hs
  · refine step_of_hlt_word ?_ hcell hd
    exact hs

end Sys2Proof.Machine
end

section
/-! PROOFS. What every step keeps, carried along a run (spec/20_memory.md R38, spec/10_state.md R22, R23): the tape's
size, the outputs made, the inputs left; and the output list, which no step reads. -/

namespace Sys2Proof.Machine

/-! ## Along a run -/

/-- A step takes a fault or completes an instruction. -/
theorem step_next_cases {s t : State} (h : step s = .next t) :
    (∃ w r, t = s.takeFault w r) ∨ ∃ i, Completed i s t := by
  by_cases ht : t.status = .faulted
  · exact .inl (step_next_faulted h ht)
  · obtain ⟨i, -, he⟩ := step_next_not_faulted h ht
    exact .inr ⟨i, exec_next_completed he ht⟩

theorem step_size {s t : State} (h : step s = .next t) : t.mem.length = s.mem.length ∧ t.cfg = s.cfg := by
  rcases step_next_cases h with ⟨w, r, rfl⟩ | ⟨i, hc⟩
  · exact ⟨rfl, rfl⟩
  · refine ⟨?_, hc.cfg⟩
    rcases hc.mem with hm | ⟨p, v, -, hm, -⟩
    · rw [hm]
    · rw [hm, List.length_set]

theorem step_out {s t : State} (h : step s = .next t) : t.out = s.out ∨ ∃ v, t.out = s.out ++ [v] := by
  rcases step_next_cases h with ⟨w, r, rfl⟩ | ⟨i, hc⟩
  · exact .inl rfl
  · exact hc.out.imp_right fun ⟨v, hv, _⟩ => ⟨v, hv⟩

theorem step_inp {s t : State} (h : step s = .next t) : t.inp = s.inp ∨ s.inp ≠ [] ∧ t.inp = s.inp.dropLast := by
  rcases step_next_cases h with ⟨w, r, rfl⟩ | ⟨i, hc⟩
  · exact .inl rfl
  · exact hc.inp

/-- Settles O38: by induction over the steps. -/
theorem tapeSizeIsFixedForTheRun : Obligations.TapeSizeIsFixedForTheRun := by
  intro n s
  refine runSteps_induction (P := fun t => t.mem.length = s.mem.length ∧ t.cfg = s.cfg) ?_ n ⟨rfl, rfl⟩
  rintro t u ⟨hlen, hcfg⟩ h
  obtain ⟨hlen', hcfg'⟩ := step_size h
  exact ⟨hlen'.trans hlen, hcfg'.trans hcfg⟩

/-- Settles O39: by induction over the steps. -/
theorem outputsAreOnlyAppended : Obligations.OutputsAreOnlyAppended := by
  refine ⟨fun n s => runSteps_induction (P := fun t => s.out <+: t.out) (fun t u ht h => ?_) n List.prefix_rfl,
    fun s t h => ?_⟩
  · rcases step_out h with ho | ⟨v, ho⟩
    · rwa [ho]
    · rw [ho]
      exact ht.trans (List.prefix_append _ _)
  · rcases step_out h with ho | ⟨v, ho⟩ <;> simp [ho]

/-- Settles O40: by induction over the steps. -/
theorem inputsAreOnlyTakenFromTheEnd : Obligations.InputsAreOnlyTakenFromTheEnd := by
  refine ⟨fun n s => runSteps_induction (P := fun t => t.inp <+: s.inp) (fun t u ht h => ?_) n List.prefix_rfl,
    fun s t => step_inp⟩
  rcases step_inp h with hq | ⟨-, hq⟩
  · rwa [hq]
  · rw [hq]
    exact (List.dropLast_prefix _).trans ht

/-! ## The output list is never read -/

/-- `s` with further values before its output list. -/
def State.prependOut (o : List Int) (s : State) : State := { s with out := o ++ s.out }

section prependOut

variable {op : Opcode} {m : Modes} {p1 p2 p3 : Int} {o : List Int} {s t : State}

theorem binary_prependOut {f : Int → Int → Except Raise Int} :
    binary op f m p1 p2 p3 (s.prependOut o) = State.prependOut o <$> binary op f m p1 p2 p3 s := by
  simp only [binary, map_bind, map_pure]
  rfl

theorem branch_prependOut {taken : Int → Bool} :
    branch op taken m p1 p2 (s.prependOut o) = State.prependOut o <$> branch op taken m p1 p2 s := by
  simp only [branch, map_bind, map_pure]
  rfl

theorem conclude_prependOut {x : Except Raise State} (h : conclude op m s x = .next t) :
    conclude op m (s.prependOut o) (State.prependOut o <$> x) = .next (t.prependOut o) := by
  cases x <;> cases h <;> rfl

theorem conclude_binary_prependOut {f : Int → Int → Except Raise Int}
    (h : conclude op m s (binary op f m p1 p2 p3 s) = .next t) :
    conclude op m (s.prependOut o) (binary op f m p1 p2 p3 (s.prependOut o)) = .next (t.prependOut o) := by
  rw [binary_prependOut]
  exact conclude_prependOut h

theorem conclude_branch_prependOut {taken : Int → Bool}
    (h : conclude op m s (branch op taken m p1 p2 s) = .next t) :
    conclude op m (s.prependOut o) (branch op taken m p1 p2 (s.prependOut o)) = .next (t.prependOut o) := by
  rw [branch_prependOut]
  exact conclude_prependOut h

theorem exec_prependOut {i : Instr} (h : exec i s = .next t) : exec i (s.prependOut o) = .next (t.prependOut o) := by
  cases i with
  | add m p1 p2 p3 => exact conclude_binary_prependOut (op := .add) h
  | mul m p1 p2 p3 => exact conclude_binary_prependOut (op := .mul) h
  | lt m p1 p2 p3 => exact conclude_binary_prependOut (op := .lt) h
  | eq m p1 p2 p3 => exact conclude_binary_prependOut (op := .eq) h
  | jt m p1 p2 => exact conclude_branch_prependOut (op := .jt) h
  | jf m p1 p2 => exact conclude_branch_prependOut (op := .jf) h
  | inp m p1 =>
    have hx := conclude_prependOut (o := o) h
    simp only [map_bind, map_pure] at hx
    exact hx
  | out m p1 =>
    have hx := conclude_prependOut (o := o) h
    simp only [map_bind, map_pure, State.prependOut, pushOutput, ← List.append_assoc] at hx
    exact hx
  | hlt m =>
    cases h
    rfl

end prependOut

/-- Settles O41: the fetch half does not read the output list, and each meaning only appends to it. -/
theorem outputsAreNeverRead : Obligations.OutputsAreNeverRead := by
  intro s t o h
  obtain ⟨hs, ⟨i, hf, he⟩ | ⟨f, hf, rfl⟩⟩ := step_next h
  · exact (step_running (s := s.prependOut o) hs hf).trans (exec_prependOut he)
  · exact step_fetch_fault (s := s.prependOut o) hs hf

end Sys2Proof.Machine
end

section
/-! PROOFS. How a run ends (spec/40_engine_cycle.md R75 to R79, spec/60_exceptions.md R108): at most one end state,
nothing after it, and runs that never end. -/

namespace Sys2Proof.Machine

/-- A run that has stopped stays where it is, however many more steps are asked for. -/
theorem runSteps_of_le {n k : Nat} {s : State} (hn : (runSteps n s).status ≠ .running) (h : n ≤ k) :
    runSteps k s = runSteps n s := by
  obtain ⟨d, rfl⟩ := Nat.exists_eq_add_of_le h
  rw [runSteps_add, runSteps_stopped hn]

/-- Settles O46: of the two numbers of steps the larger one leads to the same state. -/
theorem runHasOneEndState : Obligations.RunHasOneEndState := by
  rintro s _ _ ⟨n, rfl, hn⟩ ⟨k, rfl, hk⟩
  rcases Nat.le_total n k with h | h
  · exact (runSteps_of_le hn h).symm
  · exact runSteps_of_le hk h

/-- A run hangs just when it has no end state. -/
theorem hangs_iff (s : State) : Hangs s ↔ ¬ ∃ t, Run s t := by
  constructor
  · rintro h ⟨_, n, rfl, hn⟩
    exact hn (h n)
  · intro h n
    by_contra hn
    exact h ⟨_, n, rfl, hn⟩

theorem status_of_run {s t : State} (h : Run s t) : t.status = .halted ∨ t.status = .faulted := by
  obtain ⟨-, -, ht⟩ := h
  cases hst : t.status with
  | running => exact absurd hst ht
  | halted => exact .inl rfl
  | faulted => exact .inr rfl

/-- The status of the one end state excludes an end state of another status. -/
theorem no_run_of_other_status {s t : State} (h : Run s t) {st : Status} (hst : t.status ≠ st) :
    ¬ ∃ u, Run s u ∧ u.status = st := by
  rintro ⟨u, hu, rfl⟩
  exact hst (congrArg State.status (runHasOneEndState s t u h hu))

/-- Settles O47: with an end state its status decides between the first two ways, without one the run hangs. -/
theorem runHaltsFaultsOrHangs : Obligations.RunHaltsFaultsOrHangs := by
  intro s
  rw [hangs_iff, not_not]
  by_cases h : ∃ t, Run s t
  · obtain ⟨t, ht⟩ := h
    rcases status_of_run ht with hst | hst
    · exact .inl ⟨⟨t, ht, hst⟩, no_run_of_other_status ht (by simp [hst]), t, ht⟩
    · exact .inr (.inl ⟨no_run_of_other_status ht (by simp [hst]), ⟨t, ht, hst⟩, t, ht⟩)
  · exact .inr (.inr ⟨fun ⟨t, ht, _⟩ => h ⟨t, ht⟩, fun ⟨t, ht, _⟩ => h ⟨t, ht⟩, h⟩)

/-- Settles O49: no step is enabled in an end state. -/
theorem secondRunTakesNoStep : Obligations.SecondRunTakesNoStep := by
  rintro s t ⟨-, -, ht⟩
  refine ⟨runSteps_stopped ht, ?_⟩
  rintro _ ⟨n, rfl, -⟩
  exact runSteps_stopped ht n

/-- The end state of a run meets the invariant if its start does. -/
theorem run_keeps_inv {s t : State} (hinv : s.Inv) (h : Run s t) : t.Inv := by
  obtain ⟨n, rfl, -⟩ := h
  exact runSteps_induction stepKeepsInvariant n hinv

theorem run_keeps_cfg {s t : State} (h : Run s t) : t.cfg = s.cfg := by
  obtain ⟨n, rfl, -⟩ := h
  exact (tapeSizeIsFixedForTheRun n s).2

/-- What the host observes after Halted (R108). -/
theorem observe_of_halted {t : State} (h : t.status = .halted) : observe t = some (.success t.mem t.out) := by
  simp only [observe, h]

/-- What the host observes after Faulted (R108). -/
theorem observe_of_faulted {t : State} {r : FaultRecord} (h : t.status = .faulted) (hr : t.fault = some r) :
    observe t = some (.failure r) := by
  simp only [observe, h, hr, Option.map_some]

/-- Settles O48: the invariant gives the record of a Faulted end state. -/
theorem finishedRunIsObserved : Obligations.FinishedRunIsObserved := by
  intro s t hinv h
  rcases status_of_run h with hst | hst
  · exact .inl ⟨hst, observe_of_halted hst⟩
  · obtain ⟨r, hr, -, -⟩ := (run_keeps_inv hinv h).faultRecord hst
    exact .inr ⟨r, hst, hr, observe_of_faulted hst hr⟩

/-! ## A run that never ends -/

/-- A Running state that is its own next state is never left. -/
theorem hangs_of_step_self {s : State} (hs : s.status = .running) (h : step s = .next s) : Hangs s := by
  intro n
  have hself : runSteps n s = s :=
    runSteps_induction (P := (· = s)) (fun t u ht hu => by subst ht; cases h.symm.trans hu; rfl) n rfl
  rw [hself, hs]

/-- Settles O33: the jump writes the head that was there. -/
theorem jumpToItselfNeverEnds : Obligations.JumpToItselfNeverEnds := by
  intro s m p1 p2 c rest hs h0 hc ha
  have hforever (h : step s = .next s) : Hangs s ∧ ¬ ∃ t, Run s t :=
    have hhangs := hangs_of_step_self hs h
    ⟨hhangs, (hangs_iff s).1 hhangs⟩
  refine ⟨fun hd hne => hforever ?_, fun hd hz => hforever ?_⟩
  · rw [stepRunsTheDecodedInstruction s _ rest hs h0 hd, exec_jt_taken hc ha hne]
  · rw [stepRunsTheDecodedInstruction s _ rest hs h0 hd, exec_jf_taken hc ha hz]

end Sys2Proof.Machine
end

section
/-! PROOFS. The host's transactions (spec/10_state.md R25 to R28), several instances (spec/60_exceptions.md R104) and
the pseudo-instructions (spec/30_encoding.md R64). -/

namespace Sys2Proof.Machine

/-! ## LOAD and the reads -/

/-- Settles O42: an accepted LOAD gives R28's state, which is the literal one by definition. -/
theorem loadSetsEveryField : Obligations.LoadSetsEveryField := by
  intro s image inputs hs hmem hinp
  exact hostLoad_of_words hs hmem hinp

theorem boot_of_non_word {c : Config} {image inputs : List Int} {v : Int} (hv : v ∈ image ∨ v ∈ inputs)
    (hw : ¬ c.IsWord v) : boot c image inputs = .refused .loadOutOfRange := by
  rw [boot, if_neg]
  rintro ⟨hmem, hinp⟩
  exact hw (hv.elim (hmem v) (hinp v))

/-- Settles O43: the status is looked at first, then the values. -/
theorem loadIsRefusedOutsideItsDomain : Obligations.LoadIsRefusedOutsideItsDomain := by
  intro s image inputs
  refine ⟨fun hs => ?_, fun v hs hv hw => ?_⟩
  · rw [hostLoad, if_pos hs]
  · rw [hostLoad, if_neg hs, boot_of_non_word hv hw]

/-- Settles O44: the empty tape has no valid address, so the head 0 is none. -/
theorem emptyProgramFaultsAtTheFirstFetch : Obligations.EmptyProgramFaultsAtTheFirstFetch := by
  intro c inputs hinp
  refine ⟨State.load c [] inputs, (boot_next_iff _ _ _ _).2 ⟨by simp, hinp, rfl⟩, ?_⟩
  exact fetchOutsideTheTapeFaults (State.load c [] inputs) rfl (by simp)

/-- Settles O45: each read is a table by status. -/
theorem hostReadsByStatus : Obligations.HostReadsByStatus := by
  intro s
  refine ⟨fun h => ?_, fun h => ?_, fun h => ?_⟩
  · simp only [readStatus, readMem, readOut, observe, h, and_self]
  · simp only [readStatus, readMem, readOut, h, and_self]
  · simp only [readStatus, readMem, readOut, h, and_self]

/-! ## Several instances -/

/-- Stepping element `k` changes it by one step of a run, and no other element. -/
theorem stepInstance_eq_modify (k : Nat) (sys : List State) : stepInstance k sys = sys.modify k (runSteps 1) := by
  rw [List.modify_eq_set_getElem?, stepInstance]
  cases hk : sys[k]? with
  | none => rfl
  | some s =>
    have hself : sys.set k s = sys := by
      obtain ⟨hlt, rfl⟩ := List.getElem?_eq_some_iff.1 hk
      exact List.set_getElem_self hlt
    cases hstep : step s <;> simp [runSteps, hstep, hself]

/-- Settles O50: changes of two different elements of a list commute. -/
theorem instancesAreIndependent : Obligations.InstancesAreIndependent := by
  intro j k sys hne
  simp only [stepInstance_eq_modify]
  exact ⟨List.getElem?_modify_ne _ _ hne.symm, List.modify_modify_ne _ _ _ hne.symm⟩

/-- Settles O51: the invariant of the end state says that its outputs are Words of the same width. -/
theorem outputFeedsAnotherInstance : Obligations.OutputFeedsAnotherInstance := by
  intro s t image extra hinv h hst hmem hextra
  have hout : ∀ v ∈ t.out, s.cfg.IsWord v := by
    rw [← run_keeps_cfg h]
    exact (run_keeps_inv hinv h).out
  obtain ⟨-, -, hread⟩ := (hostReadsByStatus t).2.1 hst
  rw [feedOutput, hread, Option.map_some]
  exact congrArg some ((boot_next_iff _ _ _ _).2 ⟨hmem, List.forall_mem_append.2 ⟨hout, hextra⟩, rfl⟩)

/-! ## Pseudo-instructions -/

theorem zero_isWord (c : Config) : c.IsWord 0 := by
  have hp : (0 : Int) < 2 ^ (c.wordBits - 1) := by positivity
  constructor <;> omega

/-- Settles O52: assembling and decoding by computation, the effects by the rules of JT, JF, ADD and MUL. -/
theorem pseudoInstructionsExpandAsListed : Obligations.PseudoInstructionsExpandAsListed := by
  intro v a d s
  refine ⟨rfl, ?jmp, rfl, fun u hu => ?jmpi, rfl, fun u hu hw hd => ?movCell, rfl, fun hw hd => ?movValue, rfl,
    fun u hu hw hd => ?neg, rfl, fun hd => ?clr, rfl, ?nop⟩
  case jmp =>
    exact ⟨.jt ⟨.immediate, .immediate, .position⟩ 1 v, rfl,
      exec_jt_taken (.inl ⟨rfl, rfl⟩) (.inl ⟨rfl, rfl⟩) one_ne_zero⟩
  case jmpi =>
    exact ⟨.jt ⟨.immediate, .position, .position⟩ 1 a, rfl,
      exec_jt_taken (.inl ⟨rfl, rfl⟩) (.inr ⟨rfl, hu⟩) one_ne_zero⟩
  case movCell =>
    exact ⟨.add ⟨.position, .immediate, .position⟩ a 0 d, rfl,
      exec_add_of_sources (.inr ⟨rfl, hu⟩) (.inl ⟨rfl, rfl⟩) (add_zero u) hw hd⟩
  case movValue =>
    exact ⟨.add ⟨.immediate, .immediate, .position⟩ v 0 d, rfl,
      exec_add_of_sources (.inl ⟨rfl, rfl⟩) (.inl ⟨rfl, rfl⟩) (add_zero v) hw hd⟩
  case neg =>
    exact ⟨.mul ⟨.position, .immediate, .position⟩ a (-1) d, rfl,
      exec_mul_of_sources (.inr ⟨rfl, hu⟩) (.inl ⟨rfl, rfl⟩) (mul_neg_one u) hw hd⟩
  case clr =>
    exact ⟨.add ⟨.immediate, .immediate, .position⟩ 0 0 d, rfl,
      exec_add_of_sources (.inl ⟨rfl, rfl⟩) (.inl ⟨rfl, rfl⟩) (add_zero 0) (zero_isWord s.cfg) hd⟩
  case nop =>
    exact ⟨.jf ⟨.immediate, .immediate, .position⟩ 1 0, rfl,
      exec_jf_not_taken (.inl ⟨rfl, rfl⟩) (.inl ⟨rfl, rfl⟩) one_ne_zero⟩

end Sys2Proof.Machine
end
